-- ==== Sys2Proof/Word.lean ====
section
/-! DEFINITION. The word type of the core and its plainest readings (spec/00_scope.md R7, R17, R18). -/

namespace Sys2Proof

/-- Every general register, the pc, every CSR and every address is 32 bits wide (R7). -/
abbrev Word := BitVec 32

/-- The unit of memory (20_memory.md R101). -/
abbrev Byte := BitVec 8

end Sys2Proof
end

