-- ==== Sys2Proof/Syntax.lean ====
section
/-! DEFINITION. The instructions, one constructor per row of spec/opcode_table.json, with every field the
encoding has (spec/30_encoding.md R142, R145, R150). Immediates are the fields as encoded; their extension to
32 bits is Machine/Operands.lean's. -/

namespace Sys2Proof

/-- The number of a general register, x0 to x31 (10_state.md R30). -/
abbrev Reg := Fin 32

/-- A 12-bit CSR address (10_state.md R45). -/
abbrev CsrAddr := BitVec 12

/-- The instructions of the core. A field the instruction ignores (R150) is kept, so that no bit of an accepted
word is lost (log 20). `BitVec 13` and `BitVec 21` immediates are imm_B and imm_J of R143, bit 0 included;
`BitVec 20` is `inst[31:12]`. -/
inductive Instr where
  -- LOAD: rd, rs1, imm_I
  | lb (rd rs1 : Reg) (imm : BitVec 12)
  | lh (rd rs1 : Reg) (imm : BitVec 12)
  | lw (rd rs1 : Reg) (imm : BitVec 12)
  | lbu (rd rs1 : Reg) (imm : BitVec 12)
  | lhu (rd rs1 : Reg) (imm : BitVec 12)
  -- STORE: rs1 is the base, rs2 the data, imm_S
  | sb (rs1 rs2 : Reg) (imm : BitVec 12)
  | sh (rs1 rs2 : Reg) (imm : BitVec 12)
  | sw (rs1 rs2 : Reg) (imm : BitVec 12)
  -- MISC-MEM: every field is ignored
  | fence (fm pred succ : BitVec 4) (rs1 rd : Reg)
  | fenceI (imm : BitVec 12) (rs1 rd : Reg)
  -- OP-IMM
  | addi (rd rs1 : Reg) (imm : BitVec 12)
  | slti (rd rs1 : Reg) (imm : BitVec 12)
  | sltiu (rd rs1 : Reg) (imm : BitVec 12)
  | xori (rd rs1 : Reg) (imm : BitVec 12)
  | ori (rd rs1 : Reg) (imm : BitVec 12)
  | andi (rd rs1 : Reg) (imm : BitVec 12)
  | slli (rd rs1 : Reg) (shamt : BitVec 5)
  | srli (rd rs1 : Reg) (shamt : BitVec 5)
  | srai (rd rs1 : Reg) (shamt : BitVec 5)
  -- AUIPC
  | auipc (rd : Reg) (imm20 : BitVec 20)
  -- OP
  | add (rd rs1 rs2 : Reg)
  | sub (rd rs1 rs2 : Reg)
  | sll (rd rs1 rs2 : Reg)
  | slt (rd rs1 rs2 : Reg)
  | sltu (rd rs1 rs2 : Reg)
  | xor (rd rs1 rs2 : Reg)
  | srl (rd rs1 rs2 : Reg)
  | sra (rd rs1 rs2 : Reg)
  | or (rd rs1 rs2 : Reg)
  | and (rd rs1 rs2 : Reg)
  -- LUI
  | lui (rd : Reg) (imm20 : BitVec 20)
  -- BRANCH
  | beq (rs1 rs2 : Reg) (imm : BitVec 13)
  | bne (rs1 rs2 : Reg) (imm : BitVec 13)
  | blt (rs1 rs2 : Reg) (imm : BitVec 13)
  | bge (rs1 rs2 : Reg) (imm : BitVec 13)
  | bltu (rs1 rs2 : Reg) (imm : BitVec 13)
  | bgeu (rs1 rs2 : Reg) (imm : BitVec 13)
  -- JALR, JAL
  | jalr (rd rs1 : Reg) (imm : BitVec 12)
  | jal (rd : Reg) (imm : BitVec 21)
  -- SYSTEM: CSR access; zimm is the rs1 field read as a constant (R145)
  | csrrw (rd : Reg) (csr : CsrAddr) (rs1 : Reg)
  | csrrs (rd : Reg) (csr : CsrAddr) (rs1 : Reg)
  | csrrc (rd : Reg) (csr : CsrAddr) (rs1 : Reg)
  | csrrwi (rd : Reg) (csr : CsrAddr) (zimm : BitVec 5)
  | csrrsi (rd : Reg) (csr : CsrAddr) (zimm : BitVec 5)
  | csrrci (rd : Reg) (csr : CsrAddr) (zimm : BitVec 5)
  -- SYSTEM: environment and privileged
  | ecall
  | ebreak
  | uret
  | sret
  | mret
  | wfi
  | sfenceVma (rs1 rs2 : Reg)
  deriving DecidableEq, Repr

/-- The mnemonic of an instruction's row of spec/opcode_table.json. -/
def Instr.mnemonic : Instr → String
  | .lb .. => "LB" | .lh .. => "LH" | .lw .. => "LW" | .lbu .. => "LBU" | .lhu .. => "LHU"
  | .sb .. => "SB" | .sh .. => "SH" | .sw .. => "SW"
  | .fence .. => "FENCE" | .fenceI .. => "FENCE.I"
  | .addi .. => "ADDI" | .slti .. => "SLTI" | .sltiu .. => "SLTIU" | .xori .. => "XORI" | .ori .. => "ORI"
  | .andi .. => "ANDI" | .slli .. => "SLLI" | .srli .. => "SRLI" | .srai .. => "SRAI"
  | .auipc .. => "AUIPC"
  | .add .. => "ADD" | .sub .. => "SUB" | .sll .. => "SLL" | .slt .. => "SLT" | .sltu .. => "SLTU"
  | .xor .. => "XOR" | .srl .. => "SRL" | .sra .. => "SRA" | .or .. => "OR" | .and .. => "AND"
  | .lui .. => "LUI"
  | .beq .. => "BEQ" | .bne .. => "BNE" | .blt .. => "BLT" | .bge .. => "BGE" | .bltu .. => "BLTU"
  | .bgeu .. => "BGEU"
  | .jalr .. => "JALR" | .jal .. => "JAL"
  | .csrrw .. => "CSRRW" | .csrrs .. => "CSRRS" | .csrrc .. => "CSRRC"
  | .csrrwi .. => "CSRRWI" | .csrrsi .. => "CSRRSI" | .csrrci .. => "CSRRCI"
  | .ecall => "ECALL" | .ebreak => "EBREAK" | .uret => "URET" | .sret => "SRET" | .mret => "MRET"
  | .wfi => "WFI" | .sfenceVma .. => "SFENCE.VMA"

end Sys2Proof
end

