-- ==== Sys2Proof/WellFormed.lean ====
section
/-! DEFINITION. Which terms of Instr an encoding exists for. Register numbers and field widths are in the types;
what is left to check is that a branch or jump offset is even (spec/30_encoding.md R143: "imm_B and imm_J are
always even"), since bit 0 has no place in the word. -/

namespace Sys2Proof

/-- Bit 0 of an offset is 0. -/
def evenOffset {n : Nat} (imm : BitVec n) : Bool := !imm.getLsbD 0

/-- The instruction can be encoded (R143). -/
def Instr.wellFormed : Instr → Bool
  | .lb .. | .lh .. | .lw .. | .lbu .. | .lhu .. | .sb .. | .sh .. | .sw .. => true
  | .fence .. | .fenceI .. => true
  | .addi .. | .slti .. | .sltiu .. | .xori .. | .ori .. | .andi .. | .slli .. | .srli .. | .srai .. => true
  | .auipc .. | .lui .. => true
  | .add .. | .sub .. | .sll .. | .slt .. | .sltu .. | .xor .. | .srl .. | .sra .. | .or .. | .and .. => true
  | .beq _ _ imm | .bne _ _ imm | .blt _ _ imm | .bge _ _ imm | .bltu _ _ imm | .bgeu _ _ imm => evenOffset imm
  | .jalr .. => true
  | .jal _ imm => evenOffset imm
  | .csrrw .. | .csrrs .. | .csrrc .. | .csrrwi .. | .csrrsi .. | .csrrci .. => true
  | .ecall | .ebreak | .uret | .sret | .mret | .wfi | .sfenceVma .. => true

/-- The instruction can be encoded, as a proposition. -/
abbrev Instr.WellFormed (i : Instr) : Prop := i.wellFormed = true

end Sys2Proof
end

