-- ==== Sys2Proof/Decode.lean ====
section
/-! DEFINITION. The decoder, total on any word and any bytes and rejecting by name, then the encoder and the
opcode table (spec/30_encoding.md R140 to R150; spec/opcode_table.json). -/

namespace Sys2Proof

/-! ### The fixed fields (R141) -/

def opcodeField (w : Word) : BitVec 7 := w.extractLsb' 0 7
def rdField (w : Word) : Reg := (w.extractLsb' 7 5).toFin
def funct3Field (w : Word) : BitVec 3 := w.extractLsb' 12 3
def rs1Field (w : Word) : Reg := (w.extractLsb' 15 5).toFin
def rs2Field (w : Word) : Reg := (w.extractLsb' 20 5).toFin
def funct7Field (w : Word) : BitVec 7 := w.extractLsb' 25 7

/-! ### Immediates and other operand fields (R143 to R145), before extension to 32 bits -/

/-- `inst[31:20]`: imm_I, and the CSR address of R145. -/
def immIField (w : Word) : BitVec 12 := w.extractLsb' 20 12

/-- imm_S is `{inst[31:25], inst[11:7]}`. -/
def immSField (w : Word) : BitVec 12 := w.extractLsb' 25 7 ++ w.extractLsb' 7 5

/-- imm_B is `{inst[31], inst[7], inst[30:25], inst[11:8], 0}`. -/
def immBField (w : Word) : BitVec 13 :=
  w.extractLsb' 31 1 ++ w.extractLsb' 7 1 ++ w.extractLsb' 25 6 ++ w.extractLsb' 8 4 ++ 0#1

/-- The upper immediate `inst[31:12]`. -/
def immUField (w : Word) : BitVec 20 := w.extractLsb' 12 20

/-- imm_J is `{inst[31], inst[19:12], inst[20], inst[30:21], 0}`. -/
def immJField (w : Word) : BitVec 21 :=
  w.extractLsb' 31 1 ++ w.extractLsb' 12 8 ++ w.extractLsb' 20 1 ++ w.extractLsb' 21 10 ++ 0#1

/-- `inst[24:20]`: the shift amount of SLLI, SRLI and SRAI (R144). -/
def shamtField (w : Word) : BitVec 5 := w.extractLsb' 20 5

/-- `inst[19:15]` read as a constant (R145). -/
def zimmField (w : Word) : BitVec 5 := w.extractLsb' 15 5

/-! ### The decoder -/

/-- Why a word or a byte string is no instruction. Each such word raises IllegalInstruction (R149). -/
inductive Reject where
  | opcode      -- inst[6:0] is not in R147's map
  | funct3      -- funct3 is not in R148 for this opcode
  | funct7      -- inst[31:25] is not in R148 for this opcode and funct3
  | systemWord  -- SYSTEM with funct3 000 and no word of R148
  | truncated   -- fewer than four bytes are left (no fetch is: every fetch reads a word)
  deriving DecidableEq, Repr

def decodeLoad (w : Word) : Except Reject Instr :=
  match funct3Field w with
  | 0b000#3 => .ok (.lb (rdField w) (rs1Field w) (immIField w))
  | 0b001#3 => .ok (.lh (rdField w) (rs1Field w) (immIField w))
  | 0b010#3 => .ok (.lw (rdField w) (rs1Field w) (immIField w))
  | 0b100#3 => .ok (.lbu (rdField w) (rs1Field w) (immIField w))
  | 0b101#3 => .ok (.lhu (rdField w) (rs1Field w) (immIField w))
  | _ => .error .funct3

def decodeMiscMem (w : Word) : Except Reject Instr :=
  match funct3Field w with
  | 0b000#3 => .ok (.fence (w.extractLsb' 28 4) (w.extractLsb' 24 4) (w.extractLsb' 20 4) (rs1Field w) (rdField w))
  | 0b001#3 => .ok (.fenceI (immIField w) (rs1Field w) (rdField w))
  | _ => .error .funct3

def decodeOpImm (w : Word) : Except Reject Instr :=
  match funct3Field w with
  | 0b000#3 => .ok (.addi (rdField w) (rs1Field w) (immIField w))
  | 0b010#3 => .ok (.slti (rdField w) (rs1Field w) (immIField w))
  | 0b011#3 => .ok (.sltiu (rdField w) (rs1Field w) (immIField w))
  | 0b100#3 => .ok (.xori (rdField w) (rs1Field w) (immIField w))
  | 0b110#3 => .ok (.ori (rdField w) (rs1Field w) (immIField w))
  | 0b111#3 => .ok (.andi (rdField w) (rs1Field w) (immIField w))
  | 0b001#3 =>
    match funct7Field w with
    | 0b0000000#7 => .ok (.slli (rdField w) (rs1Field w) (shamtField w))
    | _ => .error .funct7
  | _ => -- 0b101
    match funct7Field w with
    | 0b0000000#7 => .ok (.srli (rdField w) (rs1Field w) (shamtField w))
    | 0b0100000#7 => .ok (.srai (rdField w) (rs1Field w) (shamtField w))
    | _ => .error .funct7

def decodeStore (w : Word) : Except Reject Instr :=
  match funct3Field w with
  | 0b000#3 => .ok (.sb (rs1Field w) (rs2Field w) (immSField w))
  | 0b001#3 => .ok (.sh (rs1Field w) (rs2Field w) (immSField w))
  | 0b010#3 => .ok (.sw (rs1Field w) (rs2Field w) (immSField w))
  | _ => .error .funct3

def decodeOp (w : Word) : Except Reject Instr :=
  match funct7Field w with
  | 0b0000000#7 =>
    match funct3Field w with
    | 0b000#3 => .ok (.add (rdField w) (rs1Field w) (rs2Field w))
    | 0b001#3 => .ok (.sll (rdField w) (rs1Field w) (rs2Field w))
    | 0b010#3 => .ok (.slt (rdField w) (rs1Field w) (rs2Field w))
    | 0b011#3 => .ok (.sltu (rdField w) (rs1Field w) (rs2Field w))
    | 0b100#3 => .ok (.xor (rdField w) (rs1Field w) (rs2Field w))
    | 0b101#3 => .ok (.srl (rdField w) (rs1Field w) (rs2Field w))
    | 0b110#3 => .ok (.or (rdField w) (rs1Field w) (rs2Field w))
    | _ => .ok (.and (rdField w) (rs1Field w) (rs2Field w)) -- 0b111
  | 0b0100000#7 =>
    match funct3Field w with
    | 0b000#3 => .ok (.sub (rdField w) (rs1Field w) (rs2Field w))
    | 0b101#3 => .ok (.sra (rdField w) (rs1Field w) (rs2Field w))
    | _ => .error .funct7
  | _ => .error .funct7

def decodeBranch (w : Word) : Except Reject Instr :=
  match funct3Field w with
  | 0b000#3 => .ok (.beq (rs1Field w) (rs2Field w) (immBField w))
  | 0b001#3 => .ok (.bne (rs1Field w) (rs2Field w) (immBField w))
  | 0b100#3 => .ok (.blt (rs1Field w) (rs2Field w) (immBField w))
  | 0b101#3 => .ok (.bge (rs1Field w) (rs2Field w) (immBField w))
  | 0b110#3 => .ok (.bltu (rs1Field w) (rs2Field w) (immBField w))
  | 0b111#3 => .ok (.bgeu (rs1Field w) (rs2Field w) (immBField w))
  | _ => .error .funct3

def decodeJalr (w : Word) : Except Reject Instr :=
  match funct3Field w with
  | 0b000#3 => .ok (.jalr (rdField w) (rs1Field w) (immIField w))
  | _ => .error .funct3

/-- SYSTEM with funct3 000: six exact words, and SFENCE.VMA with mask 0xFE007FFF (R148). -/
def decodeSystemWord (w : Word) : Except Reject Instr :=
  if w = 0x00000073#32 then .ok .ecall
  else if w = 0x00100073#32 then .ok .ebreak
  else if w = 0x00200073#32 then .ok .uret
  else if w = 0x10200073#32 then .ok .sret
  else if w = 0x30200073#32 then .ok .mret
  else if w = 0x10500073#32 then .ok .wfi
  else if funct7Field w = 0b0001001#7 ∧ rdField w = 0 then .ok (.sfenceVma (rs1Field w) (rs2Field w))
  else .error .systemWord

def decodeSystem (w : Word) : Except Reject Instr :=
  match funct3Field w with
  | 0b000#3 => decodeSystemWord w
  | 0b001#3 => .ok (.csrrw (rdField w) (immIField w) (rs1Field w))
  | 0b010#3 => .ok (.csrrs (rdField w) (immIField w) (rs1Field w))
  | 0b011#3 => .ok (.csrrc (rdField w) (immIField w) (rs1Field w))
  | 0b101#3 => .ok (.csrrwi (rdField w) (immIField w) (zimmField w))
  | 0b110#3 => .ok (.csrrsi (rdField w) (immIField w) (zimmField w))
  | 0b111#3 => .ok (.csrrci (rdField w) (immIField w) (zimmField w))
  | _ => .error .funct3

/-- The instruction a 32-bit word stands for: first the opcode, then the selecting fields (R147, R148). -/
def decodeWord (w : Word) : Except Reject Instr :=
  match opcodeField w with
  | 0b0000011#7 => decodeLoad w
  | 0b0001111#7 => decodeMiscMem w
  | 0b0010011#7 => decodeOpImm w
  | 0b0010111#7 => .ok (.auipc (rdField w) (immUField w))
  | 0b0100011#7 => decodeStore w
  | 0b0110011#7 => decodeOp w
  | 0b0110111#7 => .ok (.lui (rdField w) (immUField w))
  | 0b1100011#7 => decodeBranch w
  | 0b1100111#7 => decodeJalr w
  | 0b1101111#7 => .ok (.jal (rdField w) (immJField w))
  | 0b1110011#7 => decodeSystem w
  | _ => .error .opcode

/-- The word four bytes hold, the first at the lowest address (20_memory.md R103). -/
def wordOfBytes (b0 b1 b2 b3 : Byte) : Word := b3 ++ b2 ++ b1 ++ b0

/-- The first instruction of a byte string and the bytes after it (R140: every instruction is one word). -/
def decodeBytes : List Byte → Except Reject (Instr × List Byte)
  | b0 :: b1 :: b2 :: b3 :: rest =>
    match decodeWord (wordOfBytes b0 b1 b2 b3) with
    | .ok i => .ok (i, rest)
    | .error e => .error e
  | _ => .error .truncated

/-! ### The encoder (R142, R148) -/

/-- The five bits of a register number. -/
def regBits (r : Reg) : BitVec 5 := BitVec.ofFin r

def encodeR (f7 : BitVec 7) (rs2 rs1 : Reg) (f3 : BitVec 3) (rd : Reg) (op : BitVec 7) : Word :=
  f7 ++ regBits rs2 ++ regBits rs1 ++ f3 ++ regBits rd ++ op

/-- I format; `r1` is the rs1 field's five bits (a register or a zimm). -/
def encodeI (imm : BitVec 12) (r1 : BitVec 5) (f3 : BitVec 3) (rd : Reg) (op : BitVec 7) : Word :=
  imm ++ r1 ++ f3 ++ regBits rd ++ op

def encodeS (imm : BitVec 12) (rs2 rs1 : Reg) (f3 : BitVec 3) (op : BitVec 7) : Word :=
  imm.extractLsb' 5 7 ++ regBits rs2 ++ regBits rs1 ++ f3 ++ imm.extractLsb' 0 5 ++ op

def encodeB (imm : BitVec 13) (rs2 rs1 : Reg) (f3 : BitVec 3) (op : BitVec 7) : Word :=
  imm.extractLsb' 12 1 ++ imm.extractLsb' 5 6 ++ regBits rs2 ++ regBits rs1 ++ f3
    ++ imm.extractLsb' 1 4 ++ imm.extractLsb' 11 1 ++ op

def encodeU (imm20 : BitVec 20) (rd : Reg) (op : BitVec 7) : Word :=
  imm20 ++ regBits rd ++ op

def encodeJ (imm : BitVec 21) (rd : Reg) (op : BitVec 7) : Word :=
  imm.extractLsb' 20 1 ++ imm.extractLsb' 1 10 ++ imm.extractLsb' 11 1 ++ imm.extractLsb' 12 8
    ++ regBits rd ++ op

def encodeLoad (f3 : BitVec 3) (rd rs1 : Reg) (imm : BitVec 12) : Word :=
  encodeI imm (regBits rs1) f3 rd 0b0000011#7
def encodeStore (f3 : BitVec 3) (rs1 rs2 : Reg) (imm : BitVec 12) : Word :=
  encodeS imm rs2 rs1 f3 0b0100011#7
def encodeOpImm (f3 : BitVec 3) (rd rs1 : Reg) (imm : BitVec 12) : Word :=
  encodeI imm (regBits rs1) f3 rd 0b0010011#7
/-- The shifts keep a funct7 above the shift amount (R142, R144). -/
def encodeShiftImm (f7 : BitVec 7) (f3 : BitVec 3) (rd rs1 : Reg) (shamt : BitVec 5) : Word :=
  encodeI (f7 ++ shamt) (regBits rs1) f3 rd 0b0010011#7
def encodeOp (f7 : BitVec 7) (f3 : BitVec 3) (rd rs1 rs2 : Reg) : Word :=
  encodeR f7 rs2 rs1 f3 rd 0b0110011#7
def encodeBranch (f3 : BitVec 3) (rs1 rs2 : Reg) (imm : BitVec 13) : Word :=
  encodeB imm rs2 rs1 f3 0b1100011#7
def encodeCsr (f3 : BitVec 3) (rd : Reg) (csr : CsrAddr) (r1 : BitVec 5) : Word :=
  encodeI csr r1 f3 rd 0b1110011#7

/-- The word of an instruction. -/
def encode : Instr → Word
  | .lb rd rs1 imm => encodeLoad 0b000#3 rd rs1 imm
  | .lh rd rs1 imm => encodeLoad 0b001#3 rd rs1 imm
  | .lw rd rs1 imm => encodeLoad 0b010#3 rd rs1 imm
  | .lbu rd rs1 imm => encodeLoad 0b100#3 rd rs1 imm
  | .lhu rd rs1 imm => encodeLoad 0b101#3 rd rs1 imm
  | .sb rs1 rs2 imm => encodeStore 0b000#3 rs1 rs2 imm
  | .sh rs1 rs2 imm => encodeStore 0b001#3 rs1 rs2 imm
  | .sw rs1 rs2 imm => encodeStore 0b010#3 rs1 rs2 imm
  | .fence fm pred succ rs1 rd => encodeI (fm ++ pred ++ succ) (regBits rs1) 0b000#3 rd 0b0001111#7
  | .fenceI imm rs1 rd => encodeI imm (regBits rs1) 0b001#3 rd 0b0001111#7
  | .addi rd rs1 imm => encodeOpImm 0b000#3 rd rs1 imm
  | .slti rd rs1 imm => encodeOpImm 0b010#3 rd rs1 imm
  | .sltiu rd rs1 imm => encodeOpImm 0b011#3 rd rs1 imm
  | .xori rd rs1 imm => encodeOpImm 0b100#3 rd rs1 imm
  | .ori rd rs1 imm => encodeOpImm 0b110#3 rd rs1 imm
  | .andi rd rs1 imm => encodeOpImm 0b111#3 rd rs1 imm
  | .slli rd rs1 shamt => encodeShiftImm 0b0000000#7 0b001#3 rd rs1 shamt
  | .srli rd rs1 shamt => encodeShiftImm 0b0000000#7 0b101#3 rd rs1 shamt
  | .srai rd rs1 shamt => encodeShiftImm 0b0100000#7 0b101#3 rd rs1 shamt
  | .auipc rd imm20 => encodeU imm20 rd 0b0010111#7
  | .add rd rs1 rs2 => encodeOp 0b0000000#7 0b000#3 rd rs1 rs2
  | .sub rd rs1 rs2 => encodeOp 0b0100000#7 0b000#3 rd rs1 rs2
  | .sll rd rs1 rs2 => encodeOp 0b0000000#7 0b001#3 rd rs1 rs2
  | .slt rd rs1 rs2 => encodeOp 0b0000000#7 0b010#3 rd rs1 rs2
  | .sltu rd rs1 rs2 => encodeOp 0b0000000#7 0b011#3 rd rs1 rs2
  | .xor rd rs1 rs2 => encodeOp 0b0000000#7 0b100#3 rd rs1 rs2
  | .srl rd rs1 rs2 => encodeOp 0b0000000#7 0b101#3 rd rs1 rs2
  | .sra rd rs1 rs2 => encodeOp 0b0100000#7 0b101#3 rd rs1 rs2
  | .or rd rs1 rs2 => encodeOp 0b0000000#7 0b110#3 rd rs1 rs2
  | .and rd rs1 rs2 => encodeOp 0b0000000#7 0b111#3 rd rs1 rs2
  | .lui rd imm20 => encodeU imm20 rd 0b0110111#7
  | .beq rs1 rs2 imm => encodeBranch 0b000#3 rs1 rs2 imm
  | .bne rs1 rs2 imm => encodeBranch 0b001#3 rs1 rs2 imm
  | .blt rs1 rs2 imm => encodeBranch 0b100#3 rs1 rs2 imm
  | .bge rs1 rs2 imm => encodeBranch 0b101#3 rs1 rs2 imm
  | .bltu rs1 rs2 imm => encodeBranch 0b110#3 rs1 rs2 imm
  | .bgeu rs1 rs2 imm => encodeBranch 0b111#3 rs1 rs2 imm
  | .jalr rd rs1 imm => encodeI imm (regBits rs1) 0b000#3 rd 0b1100111#7
  | .jal rd imm => encodeJ imm rd 0b1101111#7
  | .csrrw rd csr rs1 => encodeCsr 0b001#3 rd csr (regBits rs1)
  | .csrrs rd csr rs1 => encodeCsr 0b010#3 rd csr (regBits rs1)
  | .csrrc rd csr rs1 => encodeCsr 0b011#3 rd csr (regBits rs1)
  | .csrrwi rd csr zimm => encodeCsr 0b101#3 rd csr zimm
  | .csrrsi rd csr zimm => encodeCsr 0b110#3 rd csr zimm
  | .csrrci rd csr zimm => encodeCsr 0b111#3 rd csr zimm
  | .ecall => 0x00000073#32
  | .ebreak => 0x00100073#32
  | .uret => 0x00200073#32
  | .sret => 0x10200073#32
  | .mret => 0x30200073#32
  | .wfi => 0x10500073#32
  | .sfenceVma rs1 rs2 => encodeR 0b0001001#7 rs2 rs1 0b000#3 0 0b1110011#7

/-- The four bytes of a word, lowest address first (20_memory.md R103). -/
def bytesOfWord (w : Word) : List Byte :=
  [w.extractLsb' 0 8, w.extractLsb' 8 8, w.extractLsb' 16 8, w.extractLsb' 24 8]

/-! ### The opcode table, as spec/opcode_table.json gives it -/

/-- A row: the words `w` with `w &&& mask = pattern` are the instruction's. -/
structure OpcodeRow where
  mnemonic : String
  mask : Word
  pattern : Word
  deriving DecidableEq, Repr

def opcodeRowsMemory : List OpcodeRow :=
  [⟨"LB", 0x0000707F, 0x00000003⟩, ⟨"LH", 0x0000707F, 0x00001003⟩, ⟨"LW", 0x0000707F, 0x00002003⟩,
   ⟨"LBU", 0x0000707F, 0x00004003⟩, ⟨"LHU", 0x0000707F, 0x00005003⟩, ⟨"SB", 0x0000707F, 0x00000023⟩,
   ⟨"SH", 0x0000707F, 0x00001023⟩, ⟨"SW", 0x0000707F, 0x00002023⟩, ⟨"FENCE", 0x0000707F, 0x0000000F⟩,
   ⟨"FENCE.I", 0x0000707F, 0x0000100F⟩]

def opcodeRowsImmediate : List OpcodeRow :=
  [⟨"ADDI", 0x0000707F, 0x00000013⟩, ⟨"SLTI", 0x0000707F, 0x00002013⟩, ⟨"SLTIU", 0x0000707F, 0x00003013⟩,
   ⟨"XORI", 0x0000707F, 0x00004013⟩, ⟨"ORI", 0x0000707F, 0x00006013⟩, ⟨"ANDI", 0x0000707F, 0x00007013⟩,
   ⟨"SLLI", 0xFE00707F, 0x00001013⟩, ⟨"SRLI", 0xFE00707F, 0x00005013⟩, ⟨"SRAI", 0xFE00707F, 0x40005013⟩,
   ⟨"AUIPC", 0x0000007F, 0x00000017⟩, ⟨"LUI", 0x0000007F, 0x00000037⟩]

def opcodeRowsRegister : List OpcodeRow :=
  [⟨"ADD", 0xFE00707F, 0x00000033⟩, ⟨"SUB", 0xFE00707F, 0x40000033⟩, ⟨"SLL", 0xFE00707F, 0x00001033⟩,
   ⟨"SLT", 0xFE00707F, 0x00002033⟩, ⟨"SLTU", 0xFE00707F, 0x00003033⟩, ⟨"XOR", 0xFE00707F, 0x00004033⟩,
   ⟨"SRL", 0xFE00707F, 0x00005033⟩, ⟨"SRA", 0xFE00707F, 0x40005033⟩, ⟨"OR", 0xFE00707F, 0x00006033⟩,
   ⟨"AND", 0xFE00707F, 0x00007033⟩]

def opcodeRowsControl : List OpcodeRow :=
  [⟨"BEQ", 0x0000707F, 0x00000063⟩, ⟨"BNE", 0x0000707F, 0x00001063⟩, ⟨"BLT", 0x0000707F, 0x00004063⟩,
   ⟨"BGE", 0x0000707F, 0x00005063⟩, ⟨"BLTU", 0x0000707F, 0x00006063⟩, ⟨"BGEU", 0x0000707F, 0x00007063⟩,
   ⟨"JALR", 0x0000707F, 0x00000067⟩, ⟨"JAL", 0x0000007F, 0x0000006F⟩]

def opcodeRowsSystem : List OpcodeRow :=
  [⟨"CSRRW", 0x0000707F, 0x00001073⟩, ⟨"CSRRS", 0x0000707F, 0x00002073⟩, ⟨"CSRRC", 0x0000707F, 0x00003073⟩,
   ⟨"CSRRWI", 0x0000707F, 0x00005073⟩, ⟨"CSRRSI", 0x0000707F, 0x00006073⟩, ⟨"CSRRCI", 0x0000707F, 0x00007073⟩,
   ⟨"ECALL", 0xFFFFFFFF, 0x00000073⟩, ⟨"EBREAK", 0xFFFFFFFF, 0x00100073⟩, ⟨"URET", 0xFFFFFFFF, 0x00200073⟩,
   ⟨"SRET", 0xFFFFFFFF, 0x10200073⟩, ⟨"MRET", 0xFFFFFFFF, 0x30200073⟩, ⟨"WFI", 0xFFFFFFFF, 0x10500073⟩,
   ⟨"SFENCE.VMA", 0xFE007FFF, 0x12000073⟩]

/-- All 52 rows. -/
def opcodeTable : List OpcodeRow :=
  opcodeRowsMemory ++ opcodeRowsImmediate ++ opcodeRowsRegister ++ opcodeRowsControl ++ opcodeRowsSystem

/-- The word belongs to the row. -/
abbrev OpcodeRow.Matches (row : OpcodeRow) (w : Word) : Prop := w &&& row.mask = row.pattern

/-! ### The host's question -/

/-- The low `nbits` bits of `w` as the 32-bit instruction word the host's numbering means, 0 above them. -/
def tableWord (nbits w : Nat) : Word := BitVec.ofNat 32 (w % 2 ^ nbits)

/-- The instruction the decoder reads from the word's bytes as memory holds them. -/
def decodeTableWord (nbits w : Nat) : Option Instr :=
  match decodeBytes (bytesOfWord (tableWord nbits w)) with
  | .ok (i, _) => some i
  | .error _ => none

end Sys2Proof
end

