-- ==== Sys2Proof/Config.lean ====
section
/-! DEFINITION. The parameters of the implementation (spec/00_scope.md R10, R12, R16): the defaults
`State.reset` uses, and what the spec requires of a parameter's value. The parameter `MEM_SIZE` itself is a
field of State, so that statements range over every value of it (log 1). -/

namespace Sys2Proof

/-- `MEM_SIZE` in the default configuration, 8 MiB (R10). -/
def Config.defaultMemSize : Nat := 0x00800000

/-- R10: `MEM_SIZE` is a multiple of 4 and at most 2^32. -/
abbrev Config.ValidMemSize (n : Nat) : Prop := n % 4 = 0 ∧ n ≤ 2 ^ 32

/-- DESIGN CHOICE (log 2): the entry point `State.reset` uses. R12 leaves `RESET_PC` to the environment and
gives no default; `State.applyReset` takes every value. -/
def Config.defaultResetPc : Word := 0x00000000#32

end Sys2Proof
end

