-- ==== Sys2Proof/Machine/CsrNames.lean ====
section
/-! DEFINITION. The CSR addresses the spec names, and the fixed masks and values of the bank (spec/10_state.md
R48, R52, R62). Numbers the source does not give are the standard RISC-V ones (log 16). -/

namespace Sys2Proof.Machine

/-! Supervisor-level addresses -/
abbrev csrSstatus : CsrAddr := 0x100#12
abbrev csrSedeleg : CsrAddr := 0x102#12
abbrev csrSideleg : CsrAddr := 0x103#12
abbrev csrSie : CsrAddr := 0x104#12
abbrev csrStvec : CsrAddr := 0x105#12
abbrev csrSscratch : CsrAddr := 0x140#12
abbrev csrSepc : CsrAddr := 0x141#12
abbrev csrScause : CsrAddr := 0x142#12
abbrev csrStval : CsrAddr := 0x143#12
abbrev csrSip : CsrAddr := 0x144#12
abbrev csrSatp : CsrAddr := 0x180#12

/-! Machine-level addresses -/
abbrev csrMstatus : CsrAddr := 0x300#12
abbrev csrMisa : CsrAddr := 0x301#12
abbrev csrMedeleg : CsrAddr := 0x302#12
abbrev csrMideleg : CsrAddr := 0x303#12
abbrev csrMie : CsrAddr := 0x304#12
abbrev csrMtvec : CsrAddr := 0x305#12
abbrev csrMscratch : CsrAddr := 0x340#12
abbrev csrMepc : CsrAddr := 0x341#12
abbrev csrMcause : CsrAddr := 0x342#12
abbrev csrMtval : CsrAddr := 0x343#12
abbrev csrMip : CsrAddr := 0x344#12
abbrev csrMvendorid : CsrAddr := 0xF11#12
abbrev csrMarchid : CsrAddr := 0xF12#12
abbrev csrMimpid : CsrAddr := 0xF13#12
abbrev csrMhartid : CsrAddr := 0xF14#12

/-- The constant value of `misa`: MXL 1, extensions S and I (R52; 00_scope.md R3). -/
abbrev misaValue : Word := 0x40040100#32

/-- `SSTATUS_MASK`: bits 1 SIE, 5 SPIE, 8 SPP, 14:13 FS, 16:15 XS, 18 SUM, 19 MXR (R62). -/
abbrev sstatusMask : Word := 0x000DE122#32

/-- The one bit of `mip` that `sip` can write, SSIP (R63). -/
abbrev sipWriteMask : Word := 0x00000002#32

/-- The addresses of the four read-only identity registers (R64). -/
abbrev idRegisters : List CsrAddr := [csrMvendorid, csrMarchid, csrMimpid, csrMhartid]

/-- The addresses that are views of a Machine register and have no storage of their own (R62, R63, R73). -/
abbrev viewRegisters : List CsrAddr := [csrSstatus, csrSie, csrSip]

end Sys2Proof.Machine
end

