-- ==== Sys2Proof/Machine/State.lean ====
section
/-! DEFINITION. The state of the core, the reasons a step can stop, and the state after reset (spec/10_state.md;
spec/70_reset_and_hazards.md R470 to R472). -/

namespace Sys2Proof.Machine

/-- The privilege modes (R40). Debug is in the type and is never entered. -/
inductive Mode where
  | user
  | supervisor
  | machine
  | debug
  deriving DecidableEq, Repr

/-- The run status (R43). -/
inductive Status where
  | run
  | haltFatal
  | haltUnimplemented
  deriving DecidableEq, Repr

/-- The synchronous exceptions (60_exceptions.md R401). -/
inductive ExceptionKind where
  | illegalInstruction
  | breakpoint
  | environmentCallFromU
  | environmentCallFromS
  | environmentCallFromM
  deriving DecidableEq, Repr

/-- The interrupt causes (60_exceptions.md R402). The three User-level ones have codes and are never taken. -/
inductive Interrupt where
  | userSoftware
  | userTimer
  | userExternal
  | supervisorSoftware
  | supervisorTimer
  | supervisorExternal
  | machineSoftware
  | machineTimer
  | machineExternal
  deriving DecidableEq, Repr

/-- What a trap is taken for (60_exceptions.md R411). -/
inductive Cause where
  | exception (e : ExceptionKind)
  | interrupt (i : Interrupt)
  deriving DecidableEq, Repr

/-- The reasons a step can stop with a fault. -/
inductive Fault where
  /-- Raised by MRET in M mode with `mstatus.MPP = 2`: `halt(HALT_FATAL)`, whose state afterwards is unspecified;
  "a model treats it as a fault" (45_system.md R374; log 8). Safe. -/
  | mretInvalidMpp
  /-- Raised by a trap to Machine mode whose previous mode is Debug, `halt(HALT_FATAL)` (60_exceptions.md R411,
  R427): no run reaches it, since the mode is never Debug (log 10). Safe. -/
  | trapFromDebug
  deriving DecidableEq, Repr

/-- The reasons a step can be refused. -/
inductive Refusal where
  /-- Raised by an arm of `exec` for an instruction without a meaning. Safe. No arm of this model does. -/
  | notModelled (mnemonic : String)
  deriving DecidableEq, Repr

/-- Byte-addressed memory as pairs of address and byte, in the one canonical form `Memory.wf` (log 15). An
unlisted address holds 0 (20_memory.md R115). -/
abbrev Memory := List Host.Cell

/-- The CSR storage `csr_raw` as pairs of address and register, in the same canonical form (log 15). An unlisted
register holds 0 (10_state.md R47). -/
abbrev CsrBank := List (Nat × Word)

/-- The state of the machine. -/
structure State where
  /-- The general registers. Index 0 is hard-wired to zero by `State.x` and `State.setX` (R30, R31). -/
  regs : Vector Word 32
  /-- The address of the next instruction to fetch (R35). -/
  pc : Word
  /-- `pc_inst`, the address of the instruction being executed (R36; log 7). -/
  pcInst : Word
  /-- The privilege mode (R40). -/
  mode : Mode
  /-- `prev_mode`, written and read within one trap entry (R44; log 6). -/
  prevMode : Mode
  /-- The run status (R43). -/
  status : Status
  /-- `csr_raw[0..4095]` (R45). -/
  csr : CsrBank
  /-- The memory behind the bus (20_memory.md R102). -/
  mem : Memory
  /-- The parameter `MEM_SIZE` (00_scope.md R10; log 1). No step changes it. -/
  memSize : Nat
  /-- What `irq()` answers at the coming steps, the next one first; after the last it answers 0
  (60_exceptions.md R406; log 5). -/
  irqInputs : List Word
  deriving DecidableEq, Repr

/-- The bank after reset: every register 0, then `misa` (R47). -/
def resetBank : CsrBank := [(csrMisa.toNat, misaValue)]

/-- The state after reset (70_reset_and_hazards.md R470, R471), in the default configuration, with no image
loaded and no interrupt input. `pc`, `pcInst`, `prevMode`, `memSize`, `mem` and `irqInputs` are as logs 1, 2, 3, 5,
6 and 7 say. -/
def State.reset : State where
  regs := Vector.replicate 32 0#32
  pc := Config.defaultResetPc
  pcInst := 0#32
  mode := .machine
  prevMode := .user
  status := .run
  csr := resetBank
  mem := []
  memSize := Config.defaultMemSize
  irqInputs := []

end Sys2Proof.Machine
end

