-- ==== Sys2Proof/Machine/Flags.lean ====
section
/-! DEFINITION. The fields of the status register `mstatus`, and what trap entry and trap return make of it
(spec/10_state.md R50; spec/60_exceptions.md R411; spec/45_system.md R373, R374). The core has no condition flags:
no instruction sets one as a side effect (10_state.md R74). -/

namespace Sys2Proof.Machine

/-- `v` with bit `i` set to `b` and every other bit as it was. -/
def setBit (v : Word) (i : Nat) (b : Bool) : Word :=
  (v &&& ~~~(1#32 <<< i)) ||| ((BitVec.ofBool b).setWidth 32 <<< i)

/-! ### Bit positions (R50) -/
abbrev bitSie : Nat := 1
abbrev bitMie : Nat := 3
abbrev bitSpie : Nat := 5
abbrev bitMpie : Nat := 7
abbrev bitSpp : Nat := 8

/-- `MPP`, bits 12:11. -/
def mppField (m : Word) : BitVec 2 := m.extractLsb' 11 2

/-- `mstatus` with `MPP` replaced. -/
def setMpp (m : Word) (p : BitVec 2) : Word := (m &&& ~~~0x00001800#32) ||| (p.setWidth 32 <<< 11)

/-- Trap entry to Supervisor mode: SPIE <- SIE, SIE <- 0, SPP <- previous privilege (60_exceptions.md R411). -/
def mstatusEnterSupervisor (m : Word) (spp : Bool) : Word :=
  setBit (setBit (setBit m bitSpie (m.getLsbD bitSie)) bitSie false) bitSpp spp

/-- Trap entry to Machine mode: MPIE <- MIE, MIE <- 0, MPP <- enc(previous mode) (60_exceptions.md R411). -/
def mstatusEnterMachine (m : Word) (mpp : BitVec 2) : Word :=
  setMpp (setBit (setBit m bitMpie (m.getLsbD bitMie)) bitMie false) mpp

/-- SRET: SIE <- SPIE, SPIE <- 1, SPP <- 0 (45_system.md R373). -/
def mstatusSret (m : Word) : Word :=
  setBit (setBit (setBit m bitSie (m.getLsbD bitSpie)) bitSpie true) bitSpp false

/-- MRET: MIE <- MPIE, MPIE <- 1, MPP <- 0 (45_system.md R374). -/
def mstatusMret (m : Word) : Word :=
  setMpp (setBit (setBit m bitMie (m.getLsbD bitMpie)) bitMpie true) 0b00#2

end Sys2Proof.Machine
end

