-- ==== Sys2Proof/Machine/Operands.lean ====
section
/-! DEFINITION. The operand forms: immediates extended to 32 bits, shift amounts, effective addresses and
pc-relative targets (spec/30_encoding.md R143 to R145; spec/40_loads_stores.md R200; spec/43_control_transfer.md
R300, R307). -/

namespace Sys2Proof.Machine

/-- `sext_N` (00_scope.md R19). -/
def sext {n : Nat} (v : BitVec n) : Word := v.signExtend 32

/-- `zext_N` (00_scope.md R19). -/
def zext {n : Nat} (v : BitVec n) : Word := v.setWidth 32

/-- imm_I, of OP-IMM, LOAD and JALR (R143). -/
def immI (imm : BitVec 12) : Word := sext imm

/-- imm_S, of STORE (R143). -/
def immS (imm : BitVec 12) : Word := sext imm

/-- imm_B, of BRANCH (R143). -/
def immB (imm : BitVec 13) : Word := sext imm

/-- imm_J, of JAL (R143). -/
def immJ (imm : BitVec 21) : Word := sext imm

/-- imm_U, of LUI and AUIPC: `{inst[31:12], 0^12}` (R143). -/
def immU (imm20 : BitVec 20) : Word := imm20 ++ 0#12

/-- The constant source of the immediate CSR forms (R145). -/
def zimmWord (zimm : BitVec 5) : Word := zext zimm

/-- The shift amount of a register-register shift, `x[rs2][4:0]` (R144). -/
def shiftAmount (v : Word) : Nat := (v.extractLsb' 0 5).toNat

/-- `x[rs1] + imm` modulo 2^32 (40_loads_stores.md R200). -/
def effectiveAddress (base imm : Word) : Word := base + imm

/-- `pc_inst + imm` modulo 2^32 (43_control_transfer.md R300). -/
def relativeTarget (pcInst imm : Word) : Word := pcInst + imm

/-- `(x[rs1] + imm_I) & 0xFFFFFFFE` (43_control_transfer.md R307). -/
def indirectTarget (base imm : Word) : Word := (base + imm) &&& 0xFFFFFFFE#32

/-- The result of a set-less-than, exactly 0 or 1 (42_integer_computational.md R241). -/
def boolWord (b : Bool) : Word := if b then 1#32 else 0#32

end Sys2Proof.Machine
end

