-- ==== Sys2Proof/Machine/Sparse.lean ====
section
/-! DEFINITION. Storage as a list of (address, value) pairs in one canonical form: addresses strictly rising and
no value 0, which is what an unlisted address holds. Memory and the CSR bank are both such lists (log 15). -/

namespace Sys2Proof.Machine

/-- The value at an address, 0 where none is listed. -/
def sparseRead {w : Nat} (a : Nat) : List (Nat × BitVec w) → BitVec w
  | [] => 0#w
  | c :: rest => if c.1 = a then c.2 else sparseRead a rest

/-- The list without the address. -/
def sparseErase {w : Nat} (a : Nat) (l : List (Nat × BitVec w)) : List (Nat × BitVec w) :=
  l.filter (fun c => c.1 != a)

/-- The list with a pair put before the first higher address. -/
def sparseInsert {w : Nat} (a : Nat) (v : BitVec w) : List (Nat × BitVec w) → List (Nat × BitVec w)
  | [] => [(a, v)]
  | c :: rest => if a < c.1 then (a, v) :: c :: rest else c :: sparseInsert a v rest

/-- The list after writing a value: writing 0 removes the entry, so equal contents are equal lists. -/
def sparseWrite {w : Nat} (a : Nat) (v : BitVec w) (l : List (Nat × BitVec w)) : List (Nat × BitVec w) :=
  if v = 0#w then sparseErase a l else sparseInsert a v (sparseErase a l)

/-- The canonical form. -/
abbrev SparseWf {w : Nat} (l : List (Nat × BitVec w)) : Prop :=
  l.Pairwise (fun c d => c.1 < d.1) ∧ ∀ c ∈ l, c.2 ≠ 0#w

/-- The canonical form of memory. -/
abbrev Memory.wf (m : Memory) : Prop := SparseWf m

/-- The canonical form of the CSR bank. -/
abbrev CsrBank.wf (b : CsrBank) : Prop := SparseWf b

end Sys2Proof.Machine
end

