-- ==== Sys2Proof/Machine/Ops.lean ====
section
/-! DEFINITION. The shared operations: registers, the bus, the CSR bank, taking a trap and returning from one. -/

namespace Sys2Proof.Machine

/-- What an operation that may stop answers. -/
abbrev Result := Host.Outcome State Fault Refusal

/-! ### General registers (spec/10_state.md R30, R31) -/

/-- `x[i]`: x0 reads 0. -/
def State.x (s : State) (r : Reg) : Word := if r = 0 then 0#32 else s.regs[r]

/-- `x[i] <- v`: discarded when i = 0. -/
def State.setX (s : State) (r : Reg) (v : Word) : State :=
  { s with regs := if r = 0 then s.regs else s.regs.set r.val v r.isLt }

/-- `pc <- target` (10_state.md R35). -/
def State.setPc (s : State) (target : Word) : State := { s with pc := target }

/-! ### The bus (spec/20_memory.md R100 to R105). No operation checks alignment or fails. -/

/-- The address of the aligned halfword that contains `addr` (R104). -/
def alignHalf (addr : Word) : Word := addr &&& ~~~1#32

/-- The address of the aligned word that contains `addr` (R104). -/
def alignWord (addr : Word) : Word := addr &&& ~~~3#32

/-- The address as issued is below `MEM_SIZE` (R102). -/
def State.backed (s : State) (addr : Word) : Bool := decide (addr.toNat < s.memSize)

def State.read8 (s : State) (addr : Word) : Byte :=
  if s.backed addr then sparseRead addr.toNat s.mem else 0#8

def State.read16 (s : State) (addr : Word) : BitVec 16 :=
  if s.backed addr then
    sparseRead ((alignHalf addr).toNat + 1) s.mem ++ sparseRead (alignHalf addr).toNat s.mem
  else 0#16

def State.read32 (s : State) (addr : Word) : Word :=
  if s.backed addr then
    wordOfBytes (sparseRead (alignWord addr).toNat s.mem) (sparseRead ((alignWord addr).toNat + 1) s.mem)
      (sparseRead ((alignWord addr).toNat + 2) s.mem) (sparseRead ((alignWord addr).toNat + 3) s.mem)
  else 0#32

def State.write8 (s : State) (addr : Word) (v : Byte) : State :=
  { s with mem := if s.backed addr then sparseWrite addr.toNat v s.mem else s.mem }

def State.write16 (s : State) (addr : Word) (v : BitVec 16) : State :=
  { s with
    mem :=
      if s.backed addr then
        sparseWrite ((alignHalf addr).toNat + 1) (v.extractLsb' 8 8)
          (sparseWrite (alignHalf addr).toNat (v.extractLsb' 0 8) s.mem)
      else s.mem }

def State.write32 (s : State) (addr : Word) (v : Word) : State :=
  { s with
    mem :=
      if s.backed addr then
        sparseWrite ((alignWord addr).toNat + 3) (v.extractLsb' 24 8)
          (sparseWrite ((alignWord addr).toNat + 2) (v.extractLsb' 16 8)
            (sparseWrite ((alignWord addr).toNat + 1) (v.extractLsb' 8 8)
              (sparseWrite (alignWord addr).toNat (v.extractLsb' 0 8) s.mem)))
      else s.mem }

/-! ### Privilege (spec/10_state.md R41) -/

/-- `enc(m)`. The value 2 encodes no mode, and Debug has no encoding (log 10). -/
def Mode.enc : Mode → Option (BitVec 2)
  | .user => some 0
  | .supervisor => some 1
  | .machine => some 3
  | .debug => none

/-- `enc(mode) >= level`; never in Debug (log 10). -/
def Mode.atLeast (m : Mode) (level : BitVec 2) : Bool :=
  match m.enc with
  | some e => decide (level ≤ e)
  | none => false

/-! ### The CSR bank (spec/44_csr.md R330 to R332) -/

/-- `csr_raw[a]`. -/
def State.csrRaw (s : State) (a : CsrAddr) : Word := sparseRead a.toNat s.csr

/-- `csr_raw[a] <- v`. -/
def State.setCsrRaw (s : State) (a : CsrAddr) (v : Word) : State := { s with csr := sparseWrite a.toNat v s.csr }

/-- The bits of `mask` from `new`, the others from `old`. -/
def mergeMasked (mask old new : Word) : Word := (old &&& ~~~mask) ||| (new &&& mask)

/-- The hook a write to `satp` calls. It does nothing (10_state.md R70). -/
def pagingUpdateHook (s : State) : State := s

/-- `CSRRead(a)` (R330). -/
def State.csrRead (s : State) (a : CsrAddr) : Word :=
  if a = csrSstatus then s.csrRaw csrMstatus &&& sstatusMask
  else if a = csrSie then s.csrRaw csrMie &&& s.csrRaw csrMideleg
  else if a = csrSip then s.csrRaw csrMip &&& s.csrRaw csrMideleg
  else s.csrRaw a

/-- `CSRWrite(a, v)` (R331). -/
def State.csrWrite (s : State) (a : CsrAddr) (v : Word) : State :=
  if a ∈ idRegisters then s
  else if a = csrMisa then s
  else if a = csrSstatus then s.setCsrRaw csrMstatus (mergeMasked sstatusMask (s.csrRaw csrMstatus) v)
  else if a = csrSie then s.setCsrRaw csrMie (mergeMasked (s.csrRaw csrMideleg) (s.csrRaw csrMie) v)
  else if a = csrSip then
    s.setCsrRaw csrMip (mergeMasked (s.csrRaw csrMideleg &&& sipWriteMask) (s.csrRaw csrMip) v)
  else if a = csrSatp then pagingUpdateHook (s.setCsrRaw csrSatp v)
  else s.setCsrRaw a v

/-- The privilege check of a CSR instruction: `enc(mode) >= a[9:8]` (R332). -/
def State.csrAllowed (s : State) (a : CsrAddr) : Bool := s.mode.atLeast (a.extractLsb' 8 2)

/-! ### Causes (spec/60_exceptions.md R401 to R403) -/

def ExceptionKind.code : ExceptionKind → Nat
  | .illegalInstruction => 2
  | .breakpoint => 3
  | .environmentCallFromU => 8
  | .environmentCallFromS => 9
  | .environmentCallFromM => 11

def Interrupt.code : Interrupt → Nat
  | .userSoftware => 0
  | .supervisorSoftware => 1
  | .machineSoftware => 3
  | .userTimer => 4
  | .supervisorTimer => 5
  | .machineTimer => 7
  | .userExternal => 8
  | .supervisorExternal => 9
  | .machineExternal => 11

def Cause.code : Cause → Nat
  | .exception e => e.code
  | .interrupt i => i.code

/-- The value written to `mcause` or `scause`: bit 31 tells an interrupt (R403). -/
def Cause.value : Cause → Word
  | .exception e => BitVec.ofNat 32 e.code
  | .interrupt i => 0x80000000#32 ||| BitVec.ofNat 32 i.code

/-- The delegation register of a trap: `mideleg` for interrupts, `medeleg` for exceptions (R411). -/
def Cause.delegationRegister : Cause → CsrAddr
  | .exception _ => csrMedeleg
  | .interrupt _ => csrMideleg

/-! ### Taking a trap (spec/60_exceptions.md R411, R414) -/

/-- `VectorAddress(tvec, code)` (R414). -/
def vectorAddress (tvec : Word) (code : Nat) : Word :=
  (tvec &&& 0xFFFFFFFC#32) + (if tvec.getLsbD 0 then BitVec.ofNat 32 (code * 4) else 0#32)

/-- The trap is handled in Supervisor mode: taken in U or S with its delegation bit set. -/
def State.delegated (s : State) (c : Cause) : Bool :=
  (s.mode == .user || s.mode == .supervisor) && (s.csrRaw c.delegationRegister).getLsbD c.code

/-- The Supervisor branch of `TrapEntry`. -/
def State.enterSupervisor (s : State) (c : Cause) (epc : Word) : State :=
  let t : State :=
    { s with prevMode := s.mode, mode := .supervisor, pc := vectorAddress (s.csrRaw csrStvec) c.code }
  (((t.setCsrRaw csrSepc epc).setCsrRaw csrScause c.value).setCsrRaw csrStval 0#32).setCsrRaw csrMstatus
    (mstatusEnterSupervisor (s.csrRaw csrMstatus) (s.mode != .user))

/-- The Machine branch of `TrapEntry`; `mpp` is the previous mode's encoding. -/
def State.enterMachine (s : State) (c : Cause) (epc : Word) (mpp : BitVec 2) : State :=
  let t : State :=
    { s with prevMode := s.mode, mode := .machine, pc := vectorAddress (s.csrRaw csrMtvec) c.code }
  (((t.setCsrRaw csrMepc epc).setCsrRaw csrMcause c.value).setCsrRaw csrMtval 0#32).setCsrRaw csrMstatus
    (mstatusEnterMachine (s.csrRaw csrMstatus) mpp)

/-- `TrapEntry(interrupt, code, epc)` (R411). From Debug it halts fatally (R427; log 10). -/
def trapEntry (c : Cause) (epc : Word) (s : State) : Result :=
  if s.delegated c then .next (s.enterSupervisor c epc)
  else
    match s.mode.enc with
    | some mpp => .next (s.enterMachine c epc mpp)
    | none => .fault .trapFromDebug

/-- `raise E`: trap entry with `epc = pc_inst` (00_scope.md R21). -/
def raise (e : ExceptionKind) (s : State) : Result := trapEntry (.exception e) s.pcInst s

/-- `halt(HALT_UNIMPLEMENTED)` (00_scope.md R22). -/
def haltUnimplemented (s : State) : State := { s with status := .haltUnimplemented }

/-! ### Returning from a trap (spec/45_system.md R373, R374) -/

/-- SRET's effect once it is allowed. -/
def State.returnFromSupervisor (s : State) : State :=
  let t : State :=
    { s with pc := s.csrRaw csrSepc, mode := if (s.csrRaw csrMstatus).getLsbD bitSpp then .supervisor else .user }
  t.setCsrRaw csrMstatus (mstatusSret (s.csrRaw csrMstatus))

/-- The mode an MPP value names; 2 names none (10_state.md R41). -/
def modeOfMpp (p : BitVec 2) : Option Mode :=
  match p with
  | 0#2 => some .user
  | 1#2 => some .supervisor
  | 3#2 => some .machine
  | _ => none

/-- MRET's effect once it is allowed. With MPP = 2 it halts fatally (log 8). -/
def State.returnFromMachine (s : State) : Result :=
  match modeOfMpp (mppField (s.csrRaw csrMstatus)) with
  | some m =>
    let t : State := { s with pc := s.csrRaw csrMepc, mode := m }
    .next (t.setCsrRaw csrMstatus (mstatusMret (s.csrRaw csrMstatus)))
  | none => .fault .mretInvalidMpp

/-! ### Fetch (spec/20_memory.md R106; spec/10_state.md R36, R37) -/

/-- The word the next fetch reads, `MemRead(pc, 4)`. -/
def State.fetchWord (s : State) : Word := s.read32 s.pc

/-- What fetch does to the state: `pc_inst <- pc` and `pc <- pc + 4`. -/
def State.advance (s : State) : State := { s with pcInst := s.pc, pc := s.pc + 4#32 }

end Sys2Proof.Machine
end

