-- ==== Sys2Proof/Machine/Control.lean ====
section
/-! DEFINITION. Branches and jumps (spec/43_control_transfer.md R300 to R310). No target is checked for alignment. -/

namespace Sys2Proof.Machine

/-- `if c(x[rs1], x[rs2]): pc <- pc_inst + imm_B`; otherwise the pc stays `pc_inst + 4` (R300). -/
def branch (c : Word → Word → Bool) (rs1 rs2 : Reg) (imm : BitVec 13) (s : State) : Result :=
  .next (if c (s.x rs1) (s.x rs2) then s.setPc (relativeTarget s.pcInst (immB imm)) else s)

/-- BEQ (R301). -/
def execBeq (rs1 rs2 : Reg) (imm : BitVec 13) (s : State) : Result := branch (fun a b => a == b) rs1 rs2 imm s
/-- BNE (R302). -/
def execBne (rs1 rs2 : Reg) (imm : BitVec 13) (s : State) : Result := branch (fun a b => a != b) rs1 rs2 imm s
/-- BLT (R303). -/
def execBlt (rs1 rs2 : Reg) (imm : BitVec 13) (s : State) : Result := branch (fun a b => a.slt b) rs1 rs2 imm s
/-- BGE (R304). -/
def execBge (rs1 rs2 : Reg) (imm : BitVec 13) (s : State) : Result := branch (fun a b => b.sle a) rs1 rs2 imm s
/-- BLTU (R305). -/
def execBltu (rs1 rs2 : Reg) (imm : BitVec 13) (s : State) : Result := branch (fun a b => a.ult b) rs1 rs2 imm s
/-- BGEU (R306). -/
def execBgeu (rs1 rs2 : Reg) (imm : BitVec 13) (s : State) : Result := branch (fun a b => b.ule a) rs1 rs2 imm s

/-- The link value, `pc_inst + 4` (R307, R308). -/
def State.linkValue (s : State) : Word := s.pcInst + 4#32

/-- JALR: the target is computed from the old rs1 before rd is written (R307). -/
def execJalr (rd rs1 : Reg) (imm : BitVec 12) (s : State) : Result :=
  .next ((s.setX rd s.linkValue).setPc (indirectTarget (s.x rs1) (immI imm)))

/-- JAL (R308). -/
def execJal (rd : Reg) (imm : BitVec 21) (s : State) : Result :=
  .next ((s.setX rd s.linkValue).setPc (relativeTarget s.pcInst (immJ imm)))

end Sys2Proof.Machine
end

