-- ==== Sys2Proof/Machine/Csr.lean ====
section
/-! DEFINITION. The CSR instructions (spec/44_csr.md R332 to R339). -/

namespace Sys2Proof.Machine

/-- The common sequence of every CSR instruction (R333): the privilege check, then read, write, and the old value
to rd. `src` was read before. -/
def csrInstr (f : Word → Word → Word) (rd : Reg) (a : CsrAddr) (src : Word) (s : State) : Result :=
  if s.csrAllowed a then
    .next ((s.csrWrite a (f (s.csrRead a) src)).setX rd (s.csrRead a))
  else raise .illegalInstruction s

def csrReplace (_old src : Word) : Word := src
def csrSetBits (old src : Word) : Word := old ||| src
def csrClearBits (old src : Word) : Word := old &&& ~~~src

/-- CSRRW (R334). -/
def execCsrrw (rd : Reg) (csr : CsrAddr) (rs1 : Reg) (s : State) : Result := csrInstr csrReplace rd csr (s.x rs1) s
/-- CSRRS (R335). -/
def execCsrrs (rd : Reg) (csr : CsrAddr) (rs1 : Reg) (s : State) : Result := csrInstr csrSetBits rd csr (s.x rs1) s
/-- CSRRC (R336). -/
def execCsrrc (rd : Reg) (csr : CsrAddr) (rs1 : Reg) (s : State) : Result := csrInstr csrClearBits rd csr (s.x rs1) s
/-- CSRRWI (R337). -/
def execCsrrwi (rd : Reg) (csr : CsrAddr) (zimm : BitVec 5) (s : State) : Result :=
  csrInstr csrReplace rd csr (zimmWord zimm) s
/-- CSRRSI (R338). -/
def execCsrrsi (rd : Reg) (csr : CsrAddr) (zimm : BitVec 5) (s : State) : Result :=
  csrInstr csrSetBits rd csr (zimmWord zimm) s
/-- CSRRCI (R339). -/
def execCsrrci (rd : Reg) (csr : CsrAddr) (zimm : BitVec 5) (s : State) : Result :=
  csrInstr csrClearBits rd csr (zimmWord zimm) s

end Sys2Proof.Machine
end

