-- ==== Sys2Proof/Machine/Integer.lean ====
section
/-! DEFINITION. The integer computational instructions (spec/42_integer_computational.md R240 to R264). None raises
an exception. -/

namespace Sys2Proof.Machine

/-- `x[rd] <- f(x[rs1], imm_I)`. -/
def opImm (f : Word → Word → Word) (rd rs1 : Reg) (imm : BitVec 12) (s : State) : Result :=
  .next (s.setX rd (f (s.x rs1) (immI imm)))

/-- `x[rd] <- f(x[rs1], x[rs2])`. -/
def opReg (f : Word → Word → Word) (rd rs1 rs2 : Reg) (s : State) : Result :=
  .next (s.setX rd (f (s.x rs1) (s.x rs2)))

/-! ### The ALU (R240 to R242) -/

def aluSlt (a b : Word) : Word := boolWord (a.slt b)
def aluSltu (a b : Word) : Word := boolWord (a.ult b)
def shiftLeft (a : Word) (n : Nat) : Word := a <<< n
def shiftRightLogical (a : Word) (n : Nat) : Word := a >>> n
def shiftRightArithmetic (a : Word) (n : Nat) : Word := a.sshiftRight n

/-! ### Register-immediate -/

/-- ADDI (R244). -/
def execAddi (rd rs1 : Reg) (imm : BitVec 12) (s : State) : Result := opImm (· + ·) rd rs1 imm s
/-- SLTI (R245). -/
def execSlti (rd rs1 : Reg) (imm : BitVec 12) (s : State) : Result := opImm aluSlt rd rs1 imm s
/-- SLTIU: the immediate is sign-extended, then compared unsigned (R246). -/
def execSltiu (rd rs1 : Reg) (imm : BitVec 12) (s : State) : Result := opImm aluSltu rd rs1 imm s
/-- XORI (R247). -/
def execXori (rd rs1 : Reg) (imm : BitVec 12) (s : State) : Result := opImm (· ^^^ ·) rd rs1 imm s
/-- ORI (R248). -/
def execOri (rd rs1 : Reg) (imm : BitVec 12) (s : State) : Result := opImm (· ||| ·) rd rs1 imm s
/-- ANDI (R249). -/
def execAndi (rd rs1 : Reg) (imm : BitVec 12) (s : State) : Result := opImm (· &&& ·) rd rs1 imm s
/-- SLLI (R250). -/
def execSlli (rd rs1 : Reg) (shamt : BitVec 5) (s : State) : Result :=
  .next (s.setX rd (shiftLeft (s.x rs1) shamt.toNat))
/-- SRLI (R251). -/
def execSrli (rd rs1 : Reg) (shamt : BitVec 5) (s : State) : Result :=
  .next (s.setX rd (shiftRightLogical (s.x rs1) shamt.toNat))
/-- SRAI (R252). -/
def execSrai (rd rs1 : Reg) (shamt : BitVec 5) (s : State) : Result :=
  .next (s.setX rd (shiftRightArithmetic (s.x rs1) shamt.toNat))

/-! ### Upper immediates -/

/-- AUIPC: the address of the AUIPC itself plus imm_U (R253). -/
def execAuipc (rd : Reg) (imm20 : BitVec 20) (s : State) : Result := .next (s.setX rd (s.pcInst + immU imm20))
/-- LUI (R264). -/
def execLui (rd : Reg) (imm20 : BitVec 20) (s : State) : Result := .next (s.setX rd (immU imm20))

/-! ### Register-register -/

/-- ADD (R254). -/
def execAdd (rd rs1 rs2 : Reg) (s : State) : Result := opReg (· + ·) rd rs1 rs2 s
/-- SUB (R255). -/
def execSub (rd rs1 rs2 : Reg) (s : State) : Result := opReg (· - ·) rd rs1 rs2 s
/-- SLL (R256). -/
def execSll (rd rs1 rs2 : Reg) (s : State) : Result := opReg (fun a b => shiftLeft a (shiftAmount b)) rd rs1 rs2 s
/-- SLT (R257). -/
def execSlt (rd rs1 rs2 : Reg) (s : State) : Result := opReg aluSlt rd rs1 rs2 s
/-- SLTU (R258). -/
def execSltu (rd rs1 rs2 : Reg) (s : State) : Result := opReg aluSltu rd rs1 rs2 s
/-- XOR (R259). -/
def execXor (rd rs1 rs2 : Reg) (s : State) : Result := opReg (· ^^^ ·) rd rs1 rs2 s
/-- SRL (R260). -/
def execSrl (rd rs1 rs2 : Reg) (s : State) : Result :=
  opReg (fun a b => shiftRightLogical a (shiftAmount b)) rd rs1 rs2 s
/-- SRA (R261). -/
def execSra (rd rs1 rs2 : Reg) (s : State) : Result :=
  opReg (fun a b => shiftRightArithmetic a (shiftAmount b)) rd rs1 rs2 s
/-- OR (R262). -/
def execOr (rd rs1 rs2 : Reg) (s : State) : Result := opReg (· ||| ·) rd rs1 rs2 s
/-- AND (R263). -/
def execAnd (rd rs1 rs2 : Reg) (s : State) : Result := opReg (· &&& ·) rd rs1 rs2 s

end Sys2Proof.Machine
end

