-- ==== Sys2Proof/Machine/LoadStore.lean ====
section
/-! DEFINITION. Loads and stores (spec/40_loads_stores.md R200 to R209). None raises an exception (R201). -/

namespace Sys2Proof.Machine

/-- The address of a load (R200). -/
def State.loadAddress (s : State) (rs1 : Reg) (imm : BitVec 12) : Word := effectiveAddress (s.x rs1) (immI imm)

/-- The address of a store (R200). -/
def State.storeAddress (s : State) (rs1 : Reg) (imm : BitVec 12) : Word := effectiveAddress (s.x rs1) (immS imm)

/-- LB (R202). -/
def execLb (rd rs1 : Reg) (imm : BitVec 12) (s : State) : Result :=
  .next (s.setX rd (sext (s.read8 (s.loadAddress rs1 imm))))

/-- LH (R203). -/
def execLh (rd rs1 : Reg) (imm : BitVec 12) (s : State) : Result :=
  .next (s.setX rd (sext (s.read16 (s.loadAddress rs1 imm))))

/-- LW (R204). -/
def execLw (rd rs1 : Reg) (imm : BitVec 12) (s : State) : Result :=
  .next (s.setX rd (s.read32 (s.loadAddress rs1 imm)))

/-- LBU (R205). -/
def execLbu (rd rs1 : Reg) (imm : BitVec 12) (s : State) : Result :=
  .next (s.setX rd (zext (s.read8 (s.loadAddress rs1 imm))))

/-- LHU (R206). -/
def execLhu (rd rs1 : Reg) (imm : BitVec 12) (s : State) : Result :=
  .next (s.setX rd (zext (s.read16 (s.loadAddress rs1 imm))))

/-- SB (R207). -/
def execSb (rs1 rs2 : Reg) (imm : BitVec 12) (s : State) : Result :=
  .next (s.write8 (s.storeAddress rs1 imm) ((s.x rs2).extractLsb' 0 8))

/-- SH (R208). -/
def execSh (rs1 rs2 : Reg) (imm : BitVec 12) (s : State) : Result :=
  .next (s.write16 (s.storeAddress rs1 imm) ((s.x rs2).extractLsb' 0 16))

/-- SW (R209). -/
def execSw (rs1 rs2 : Reg) (imm : BitVec 12) (s : State) : Result :=
  .next (s.write32 (s.storeAddress rs1 imm) (s.x rs2))

end Sys2Proof.Machine
end

