-- ==== Sys2Proof/Machine/MiscMem.lean ====
section
/-! DEFINITION. FENCE and FENCE.I: no operation, whatever the ignored fields hold (spec/41_misc_mem.md R230, R231;
spec/30_encoding.md R150). -/

namespace Sys2Proof.Machine

/-- FENCE (R230). -/
def execFence (_fm _pred _succ : BitVec 4) (_rs1 _rd : Reg) (s : State) : Result := .next s

/-- FENCE.I (R231). -/
def execFenceI (_imm : BitVec 12) (_rs1 _rd : Reg) (s : State) : Result := .next s

end Sys2Proof.Machine
end

