-- ==== Sys2Proof/Machine/System.lean ====
section
/-! DEFINITION. The environment and privileged instructions (spec/45_system.md R370 to R376). -/

namespace Sys2Proof.Machine

/-- ECALL: the exception of the caller's mode (R370). In Debug, which no run reaches, R370 names none (log 10). -/
def execEcall (s : State) : Result :=
  match s.mode with
  | .user => raise .environmentCallFromU s
  | .supervisor => raise .environmentCallFromS s
  | .machine => raise .environmentCallFromM s
  | .debug => .fault .trapFromDebug

/-- EBREAK (R371). -/
def execEbreak (s : State) : Result := raise .breakpoint s

/-- URET: the pc goes back to the URET and the core halts as unimplemented (R372; log 9). -/
def execUret (s : State) : Result := .next (haltUnimplemented (s.setPc s.pcInst))

/-- SRET: needs S or M (R373). -/
def execSret (s : State) : Result :=
  if s.mode.atLeast 1 then .next s.returnFromSupervisor else raise .illegalInstruction s

/-- MRET: needs M (R374). -/
def execMret (s : State) : Result :=
  if s.mode.atLeast 3 then s.returnFromMachine else raise .illegalInstruction s

/-- WFI: no operation; the core does not wait (R375). -/
def execWfi (s : State) : Result := .next s

/-- SFENCE.VMA: no operation; rs1 and rs2 are not read (R376). -/
def execSfenceVma (_rs1 _rs2 : Reg) (s : State) : Result := .next s

end Sys2Proof.Machine
end

