-- ==== Sys2Proof/Machine/Interrupts.lean ====
section
/-! DEFINITION. What a step does before it fetches: the external-interrupt latch, the choice of an interrupt and
its delivery, and the timer hook (spec/60_exceptions.md R400, R405 to R410, R422, R429). -/

namespace Sys2Proof.Machine

/-- What `irq()` returns at this step (R406; log 5). -/
def State.irq (s : State) : Word := s.irqInputs.headD 0#32

/-- Phase (1), first line: a nonzero answer sets `mip[9]`, a zero leaves it; the answer is used up (R406). -/
def State.pollIrq (s : State) : State :=
  { s with
    irqInputs := s.irqInputs.tail
    csr := if s.irq = 0#32 then s.csr
           else sparseWrite csrMip.toNat (setBit (s.csrRaw csrMip) 9 true) s.csr }

/-- Interrupt `i` is eligible: `mip[i] = 1` and `mie[i] = 1` (R407). -/
def State.eligible (s : State) (i : Interrupt) : Bool :=
  (s.csrRaw csrMip).getLsbD i.code && (s.csrRaw csrMie).getLsbD i.code

/-- The order of selection, highest first (R408). -/
def interruptPriority : List Interrupt :=
  [.machineExternal, .machineSoftware, .machineTimer, .supervisorExternal, .supervisorSoftware, .supervisorTimer]

/-- The interrupt selected, if any (R408). -/
def State.selected (s : State) : Option Interrupt := interruptPriority.find? s.eligible

/-- The global gate by mode (R409). Debug, which no run reaches, is left open: the delivery then stops with
`trapFromDebug` (log 10). -/
def State.gate (s : State) : Bool :=
  match s.mode with
  | .machine => (s.csrRaw csrMstatus).getLsbD bitMie
  | .supervisor => (s.csrRaw csrMstatus).getLsbD bitSie
  | .user => true
  | .debug => true

/-- The interrupt this step takes, if any: one is selected and the gate is open (R400, R410). -/
def State.deliverable (s : State) : Option Interrupt := if s.gate then s.selected else none

/-- Delivery: `mip[i] <- 0`, then trap entry with `epc = pc` (R410). -/
def takeInterrupt (i : Interrupt) (s : State) : Result :=
  trapEntry (.interrupt i) s.pc (s.setCsrRaw csrMip (setBit (s.csrRaw csrMip) i.code false))

/-- Phase (2): the timer tick hook does nothing (R422). -/
def timerTick (s : State) : State := s

/-- A halted core's step changes no state and polls nothing (R429; log 13). -/
def haltedStep (s : State) : Result := .next s

end Sys2Proof.Machine
end

