-- ==== Sys2Proof/Machine/Step.lean ====
section
/-! DEFINITION. One step of the core (spec/60_exceptions.md R400). -/

namespace Sys2Proof.Machine

/-- Phases (3) to (5): fetch, decode and execute. A word that is no instruction raises IllegalInstruction. -/
def executeNext (s : State) : Host.Outcome State Fault Refusal :=
  match decodeWord s.fetchWord with
  | .ok i => exec i s.advance
  | .error _ => raise .illegalInstruction s.advance

/-- A step of a running core: the interrupt latch, then one interrupt or one instruction. -/
def runningStep (s : State) : Host.Outcome State Fault Refusal :=
  match s.pollIrq.deliverable with
  | some i => takeInterrupt i s.pollIrq
  | none => executeNext (timerTick s.pollIrq)

/-- One step (R400, R429). -/
def step (s : State) : Host.Outcome State Fault Refusal :=
  match s.status with
  | .run => runningStep s
  | .haltFatal => haltedStep s
  | .haltUnimplemented => haltedStep s

/-- The state with an instruction word where the next fetch reads it: the aligned word that contains the pc
(20_memory.md R106). It runs at the next step where the pc is below `MEM_SIZE`, the core is running and no
interrupt is deliverable, as after reset (log 21). -/
def State.withFetchWord (s : State) (nbits w : Nat) : State := s.write32 s.pc (tableWord nbits w)

end Sys2Proof.Machine
end

