-- ==== Sys2Proof/Machine/Pseudo.lean ====
section
/-! DEFINITION. The standard assembler register names and pseudo-instructions (spec/10_state.md R33;
spec/30_encoding.md R154, R155). The hardware never sees them: it executes the expansion. -/

namespace Sys2Proof.Machine

/-- The assembler names of x0 to x31 (R33). -/
def abiNames : List String :=
  ["zero", "ra", "sp", "gp", "tp", "t0", "t1", "t2", "s0", "s1", "a0", "a1", "a2", "a3", "a4", "a5"]
    ++ ["a6", "a7", "s2", "s3", "s4", "s5", "s6", "s7", "s8", "s9", "s10", "s11", "t3", "t4", "t5", "t6"]

/-- `hi20(v) = (v + 0x800) >> 12` (R155). -/
def hi20 (v : Word) : BitVec 20 := (v + 0x800#32).extractLsb' 12 20

/-- `lo12(v) = v - (hi20(v) << 12)`, as the 12-bit immediate (R155). -/
def lo12 (v : Word) : BitVec 12 := v.extractLsb' 0 12

/-- The pseudo-instructions. A branch or jump target is given by its offset from the instruction, as `target - pc`. -/
inductive Pseudo where
  | nop
  | li (rd : Reg) (imm : Word)
  | la (rd : Reg) (offset : Word)
  | mv (rd rs : Reg)
  | not (rd rs : Reg)
  | neg (rd rs : Reg)
  | seqz (rd rs : Reg)
  | snez (rd rs : Reg)
  | sltz (rd rs : Reg)
  | sgtz (rd rs : Reg)
  | beqz (rs : Reg) (offset : BitVec 13)
  | bnez (rs : Reg) (offset : BitVec 13)
  | blez (rs : Reg) (offset : BitVec 13)
  | bgez (rs : Reg) (offset : BitVec 13)
  | bltz (rs : Reg) (offset : BitVec 13)
  | bgtz (rs : Reg) (offset : BitVec 13)
  | bgt (a b : Reg) (offset : BitVec 13)
  | ble (a b : Reg) (offset : BitVec 13)
  | bgtu (a b : Reg) (offset : BitVec 13)
  | bleu (a b : Reg) (offset : BitVec 13)
  | j (offset : BitVec 21)
  | jal (offset : BitVec 21)
  | jr (rs : Reg)
  | jalr (rs : Reg)
  | ret
  | call (offset : Word)
  | tail (offset : Word)
  | fence
  | csrr (rd : Reg) (csr : CsrAddr)
  | csrw (csr : CsrAddr) (rs : Reg)
  | csrs (csr : CsrAddr) (rs : Reg)
  | csrc (csr : CsrAddr) (rs : Reg)
  | csrwi (csr : CsrAddr) (zimm : BitVec 5)
  | csrsi (csr : CsrAddr) (zimm : BitVec 5)
  | csrci (csr : CsrAddr) (zimm : BitVec 5)
  | rdcycle (rd : Reg)
  | rdtime (rd : Reg)
  | rdinstret (rd : Reg)
  deriving DecidableEq, Repr

/-- The expansion of `li` (R155): one ADDI where the value fits it, else LUI and an ADDI that is left out when its
immediate is 0. -/
def expandLi (rd : Reg) (imm : Word) : List Instr :=
  if -2048 ≤ imm.toInt ∧ imm.toInt ≤ 2047 then [.addi rd 0 (lo12 imm)]
  else if lo12 imm = 0#12 then [.lui rd (hi20 imm)]
  else [.lui rd (hi20 imm), .addi rd rd (lo12 imm)]

/-- The expansions (R155). -/
def Pseudo.expand : Pseudo → List Instr
  | .nop => [.addi 0 0 0]
  | .li rd imm => expandLi rd imm
  | .la rd offset => [.auipc rd (hi20 offset), .addi rd rd (lo12 offset)]
  | .mv rd rs => [.addi rd rs 0]
  | .not rd rs => [.xori rd rs (-1#12)]
  | .neg rd rs => [.sub rd 0 rs]
  | .seqz rd rs => [.sltiu rd rs 1]
  | .snez rd rs => [.sltu rd 0 rs]
  | .sltz rd rs => [.slt rd rs 0]
  | .sgtz rd rs => [.slt rd 0 rs]
  | .beqz rs offset => [.beq rs 0 offset]
  | .bnez rs offset => [.bne rs 0 offset]
  | .blez rs offset => [.bge 0 rs offset]
  | .bgez rs offset => [.bge rs 0 offset]
  | .bltz rs offset => [.blt rs 0 offset]
  | .bgtz rs offset => [.blt 0 rs offset]
  | .bgt a b offset => [.blt b a offset]
  | .ble a b offset => [.bge b a offset]
  | .bgtu a b offset => [.bltu b a offset]
  | .bleu a b offset => [.bgeu b a offset]
  | .j offset => [.jal 0 offset]
  | .jal offset => [.jal 1 offset]
  | .jr rs => [.jalr 0 rs 0]
  | .jalr rs => [.jalr 1 rs 0]
  | .ret => [.jalr 0 1 0]
  | .call offset => [.auipc 1 (hi20 offset), .jalr 1 1 (lo12 offset)]
  | .tail offset => [.auipc 6 (hi20 offset), .jalr 0 6 (lo12 offset)]
  | .fence => [.fence 0x0#4 0xF#4 0xF#4 0 0]
  | .csrr rd csr => [.csrrs rd csr 0]
  | .csrw csr rs => [.csrrw 0 csr rs]
  | .csrs csr rs => [.csrrs 0 csr rs]
  | .csrc csr rs => [.csrrc 0 csr rs]
  | .csrwi csr zimm => [.csrrwi 0 csr zimm]
  | .csrsi csr zimm => [.csrrsi 0 csr zimm]
  | .csrci csr zimm => [.csrrci 0 csr zimm]
  | .rdcycle rd => [.csrrs rd 0xC00#12 0]
  | .rdtime rd => [.csrrs rd 0xC01#12 0]
  | .rdinstret rd => [.csrrs rd 0xC02#12 0]

end Sys2Proof.Machine
end

