-- ==== Sys2Proof/Machine/Environment.lean ====
section
/-! DEFINITION. What the environment does to the core at step boundaries: load, reset, boot, the end of a run and
the register dump (spec/70_reset_and_hazards.md R470 to R473, R479, R480; log 14). -/

namespace Sys2Proof.Machine

/-- `reset(entry_pc)` (R470). Memory, `MEM_SIZE` and the coming `irq()` answers are not the core's to change
(R472); `pc_inst` and `prev_mode` take the values of `State.reset` (logs 6, 7). -/
def State.applyReset (s : State) (entryPc : Word) : State :=
  { s with
    regs := Vector.replicate 32 0#32
    mode := .machine
    csr := resetBank
    pc := entryPc
    status := .run
    pcInst := State.reset.pcInst
    prevMode := State.reset.prevMode }

/-- The loader's copy of an image into the backed memory, before reset (R473; 20_memory.md R115). -/
def State.loadImage (s : State) (image : List Host.Cell) : State :=
  image.foldl (fun t c => if c.1 < 2 ^ 32 then t.write8 (BitVec.ofNat 32 c.1) c.2 else t) s

/-- A machine of `memSize` bytes, all 0, as the environment constructs it, with the `irq()` answers to come. -/
def State.constructed (memSize : Nat) (irqInputs : List Word) : State :=
  { State.reset with memSize := memSize, irqInputs := irqInputs }

/-- The boot sequence (R473): construct, load, reset to the entry point. -/
def State.boot (memSize : Nat) (image : List Host.Cell) (entryPc : Word) (irqInputs : List Word) : State :=
  ((State.constructed memSize irqInputs).loadImage image).applyReset entryPc

/-- The final register dump, x0 to x31 (R479). -/
def dumpRegisters (s : State) : List Word := (List.finRange 32).map s.x

/-- How a run has ended (R480). -/
inductive RunEnd where
  | reached   -- status RUN and the pc at END
  | fault     -- HALT_FATAL
  | refusal   -- HALT_UNIMPLEMENTED
  deriving DecidableEq, Repr

/-- The end of a run with parameter `END`, seen at a step boundary (R480). -/
def runEnd (endPc : Word) (s : State) : Option RunEnd :=
  match s.status with
  | .run => if s.pc = endPc then some .reached else none
  | .haltFatal => some .fault
  | .haltUnimplemented => some .refusal

/-- Steps until the run ends, at most `fuel` of them. -/
def runTo (endPc : Word) : Nat → State → Result
  | 0, s => .next s
  | fuel + 1, s =>
    match runEnd endPc s with
    | some _ => .next s
    | none =>
      match step s with
      | .next t => runTo endPc fuel t
      | .fault f => .fault f
      | .refused r => .refused r

end Sys2Proof.Machine
end

