-- ==== Sys2Proof/Safety.lean ====
section
/-! DEFINITION. The terms claims are stated in: the invariant of every run, and what a result leaves unchanged. -/

namespace Sys2Proof.Machine

/-! ### The invariant -/

/-- What every state of a run satisfies. Memory is canonical and lies below a legal `MEM_SIZE`; the CSR bank is
canonical and within its 4096 addresses; `misa` and the identity registers hold their fixed values and the storage
at the view addresses stays 0 (10_state.md R52, R64, R73; 44_csr.md R340); the mode is never Debug (10_state.md
R40). -/
structure Inv (s : State) : Prop where
  memSize : Config.ValidMemSize s.memSize
  memory : Memory.wf s.mem
  memoryBelow : ∀ c ∈ s.mem, c.1 < s.memSize
  bank : CsrBank.wf s.csr
  bankBelow : ∀ c ∈ s.csr, c.1 < 4096
  misa : s.csrRaw csrMisa = misaValue
  identity : ∀ a ∈ idRegisters, s.csrRaw a = 0#32
  views : ∀ a ∈ viewRegisters, s.csrRaw a = 0#32
  mode : s.mode ≠ .debug

/-- The next state of an outcome, if it is one. -/
def nextState : Host.Outcome State Fault Refusal → Option State
  | .next s => some s
  | .fault _ => none
  | .refused _ => none

/-! ### Frames -/

/-- No general register changed. -/
def SameRegisters (s t : State) : Prop := ∀ r : Reg, t.x r = s.x r

/-- No CSR storage changed. -/
def SameCsrs (s t : State) : Prop := ∀ a : CsrAddr, t.csrRaw a = s.csrRaw a

/-- No byte of memory changed. -/
def SameMemory (s t : State) : Prop := ∀ a : Word, t.read8 a = s.read8 a

/-- The mode, the saved previous mode and the run status did not change. -/
def SameModes (s t : State) : Prop := t.mode = s.mode ∧ t.prevMode = s.prevMode ∧ t.status = s.status

/-- The parameter, the inputs to come and `pc_inst` did not change. -/
def SameInputs (s t : State) : Prop :=
  t.memSize = s.memSize ∧ t.irqInputs = s.irqInputs ∧ t.pcInst = s.pcInst

/-- Register rd holds v (nothing is written when rd is x0); everything else, the pc too, is as it was. -/
structure RegisterResult (s t : State) (rd : Reg) (v : Word) : Prop where
  registers : ∀ r : Reg, t.x r = if r = rd ∧ r ≠ 0 then v else s.x r
  pc : t.pc = s.pc
  csrs : SameCsrs s t
  memory : SameMemory s t
  modes : SameModes s t
  inputs : SameInputs s t

/-- The pc holds the target; everything else is as it was. -/
structure PcResult (s t : State) (target : Word) : Prop where
  pc : t.pc = target
  registers : SameRegisters s t
  csrs : SameCsrs s t
  memory : SameMemory s t
  modes : SameModes s t
  inputs : SameInputs s t

/-- Register rd holds the link value and the pc the target; everything else is as it was. -/
structure LinkResult (s t : State) (rd : Reg) (link target : Word) : Prop where
  registers : ∀ r : Reg, t.x r = if r = rd ∧ r ≠ 0 then link else s.x r
  pc : t.pc = target
  csrs : SameCsrs s t
  memory : SameMemory s t
  modes : SameModes s t
  inputs : SameInputs s t

/-- Register rd holds what `CSRRead(a)` gave, the bank is as `CSRWrite(a, v)` leaves it, and everything else is as
it was (44_csr.md R333). -/
structure CsrResult (s t : State) (rd : Reg) (a : CsrAddr) (v : Word) : Prop where
  registers : ∀ r : Reg, t.x r = if r = rd ∧ r ≠ 0 then s.csrRead a else s.x r
  csrs : ∀ b : CsrAddr, t.csrRaw b = (s.csrWrite a v).csrRaw b
  pc : t.pc = s.pc
  memory : SameMemory s t
  modes : SameModes s t
  inputs : SameInputs s t

/-- The n bytes of v, least significant first, stand at base and above when the store is backed; every other byte
of memory and everything else is as it was. -/
structure StoreResult (s t : State) (backed : Prop) (base : Word) (n : Nat) (v : Word) : Prop where
  stored : ∀ a : Word, backed → (a - base).toNat < n → t.read8 a = v.extractLsb' (8 * (a - base).toNat) 8
  others : ∀ a : Word, ¬ (backed ∧ (a - base).toNat < n) → t.read8 a = s.read8 a
  registers : SameRegisters s t
  pc : t.pc = s.pc
  csrs : SameCsrs s t
  modes : SameModes s t
  inputs : SameInputs s t

/-- A trap handled in Machine mode with this cause value, code and saved address, taken from a mode whose encoding
is mpp (60_exceptions.md R411). The registers are named by their addresses: 0x300 mstatus, 0x305 mtvec, 0x341 mepc,
0x342 mcause, 0x343 mtval. -/
structure MachineTrap (s t : State) (cause : Word) (code : Nat) (epc : Word) (mpp : BitVec 2) : Prop where
  mode : t.mode = .machine
  prevMode : t.prevMode = s.mode
  pc : t.pc = vectorAddress (s.csrRaw 0x305#12) code
  mepc : t.csrRaw 0x341#12 = epc
  mcause : t.csrRaw 0x342#12 = cause
  mtval : t.csrRaw 0x343#12 = 0#32
  mpie : (t.csrRaw 0x300#12).getLsbD 7 = (s.csrRaw 0x300#12).getLsbD 3
  mie : (t.csrRaw 0x300#12).getLsbD 3 = false
  mpp : (t.csrRaw 0x300#12).extractLsb' 11 2 = mpp
  otherBits : ∀ k : Nat, k ≠ 3 → k ≠ 7 → k ≠ 11 → k ≠ 12 →
    (t.csrRaw 0x300#12).getLsbD k = (s.csrRaw 0x300#12).getLsbD k
  otherCsrs : ∀ a : CsrAddr, a ≠ 0x341#12 → a ≠ 0x342#12 → a ≠ 0x343#12 → a ≠ 0x300#12 → t.csrRaw a = s.csrRaw a
  registers : SameRegisters s t
  memory : SameMemory s t
  status : t.status = s.status
  inputs : SameInputs s t

/-- A trap handled in Supervisor mode with this cause value, code and saved address, taken from U (spp false) or S
(spp true) (60_exceptions.md R411). 0x105 is stvec, 0x141 sepc, 0x142 scause, 0x143 stval. -/
structure SupervisorTrap (s t : State) (cause : Word) (code : Nat) (epc : Word) (spp : Bool) : Prop where
  mode : t.mode = .supervisor
  prevMode : t.prevMode = s.mode
  pc : t.pc = vectorAddress (s.csrRaw 0x105#12) code
  sepc : t.csrRaw 0x141#12 = epc
  scause : t.csrRaw 0x142#12 = cause
  stval : t.csrRaw 0x143#12 = 0#32
  spie : (t.csrRaw 0x300#12).getLsbD 5 = (s.csrRaw 0x300#12).getLsbD 1
  sie : (t.csrRaw 0x300#12).getLsbD 1 = false
  spp : (t.csrRaw 0x300#12).getLsbD 8 = spp
  otherBits : ∀ k : Nat, k ≠ 1 → k ≠ 5 → k ≠ 8 →
    (t.csrRaw 0x300#12).getLsbD k = (s.csrRaw 0x300#12).getLsbD k
  otherCsrs : ∀ a : CsrAddr, a ≠ 0x141#12 → a ≠ 0x142#12 → a ≠ 0x143#12 → a ≠ 0x300#12 → t.csrRaw a = s.csrRaw a
  registers : SameRegisters s t
  memory : SameMemory s t
  status : t.status = s.status
  inputs : SameInputs s t

/-- t is s after `TrapEntry(interrupt, code, epc)`, in the spec's own terms: an interrupt writes the cause value
0x80000000 | code and is delegated by bit code of mideleg (0x303), an exception writes code and is delegated by
medeleg (0x302); only a trap taken in U or S is delegated (60_exceptions.md R403, R411, R412; the entry's detail is
the spec's decision D4, log 17). -/
def TrapTaken (s t : State) (interrupt : Bool) (code : Nat) (epc : Word) : Prop :=
  let cause : Word := if interrupt then 0x80000000#32 ||| BitVec.ofNat 32 code else BitVec.ofNat 32 code
  let delegation : Word := if interrupt then s.csrRaw 0x303#12 else s.csrRaw 0x302#12
  match s.mode with
  | .user =>
    if delegation.getLsbD code then SupervisorTrap s t cause code epc false else MachineTrap s t cause code epc 0#2
  | .supervisor =>
    if delegation.getLsbD code then SupervisorTrap s t cause code epc true else MachineTrap s t cause code epc 1#2
  | .machine => MachineTrap s t cause code epc 3#2
  | .debug => False

/-! ### The bank, register by register and bit by bit (44_csr.md R330, R331) -/

/-- The register whose storage an address names: a view's Machine register, else its own. -/
def csrStorage (a : CsrAddr) : CsrAddr :=
  if a = 0x100#12 then 0x300#12 else if a = 0x104#12 then 0x304#12 else if a = 0x144#12 then 0x344#12 else a

/-- The address is one of misa, mvendorid, marchid, mimpid and mhartid. -/
def csrFixed (a : CsrAddr) : Prop :=
  a = 0x301#12 ∨ a = 0xF11#12 ∨ a = 0xF12#12 ∨ a = 0xF13#12 ∨ a = 0xF14#12

/-- Bit k of the storage is visible through the address. -/
def csrVisible (s : State) (a : CsrAddr) (k : Nat) : Prop :=
  if a = 0x100#12 then k ∈ [1, 5, 8, 13, 14, 15, 16, 18, 19]
  else if a = 0x104#12 ∨ a = 0x144#12 then (s.csrRaw 0x303#12).getLsbD k = true
  else True

/-- A write to the address changes bit k of its storage. -/
def csrWritable (s : State) (a : CsrAddr) (k : Nat) : Prop :=
  ¬ csrFixed a ∧ csrVisible s a k ∧ (a = 0x144#12 → k = 1)

/-! ### Kinds of instruction -/

/-- The instructions of the CSR family. -/
def isCsrAccess : Instr → Bool
  | .csrrw .. | .csrrs .. | .csrrc .. | .csrrwi .. | .csrrsi .. | .csrrci .. => true
  | _ => false

/-- The instructions that store. -/
def isStore : Instr → Bool
  | .sb .. | .sh .. | .sw .. => true
  | _ => false

/-- The instructions outside RV32I proper that read or write CSRs, the mode or the status. -/
def isPrivileged : Instr → Bool
  | .ecall | .ebreak | .uret | .sret | .mret => true
  | i => isCsrAccess i

/-- The running core's next step fetches an instruction: no interrupt is deliverable. -/
def FetchesNext (s : State) : Prop := s.status = .run ∧ s.pollIrq.deliverable = none

/-- The meanings of a list of instructions one after the other, without the fetches between them. -/
def execAll : List Instr → State → Host.Outcome State Fault Refusal
  | [], s => .next s
  | i :: rest, s =>
    match exec i s with
    | .next t => execAll rest t
    | .fault f => .fault f
    | .refused r => .refused r

end Sys2Proof.Machine
end

