-- ==== Sys2Proof/Certificates/Slice0/Obligations.lean ====
section
/-! DEFINITION. The statements for the provers. A docstring names the rule of spec/ a statement formalises; where
the rule rests on a decision or general knowledge of the spec's own, the docstring names that and the log entry. -/

open Sys2Proof Sys2Proof.Machine

/-! ### Encoding -/

/-- Words written out from the encodings and examples of the families' rules decode to their instructions. The
numbers are general knowledge of the spec's (GK7; log 16). -/
def Obligations.DecodesWordsOfEveryFamily : Prop :=
  decodeWord 0x00030283#32 = .ok (.lb 5 6 0) ∧
  decodeWord 0x00732423#32 = .ok (.sw 6 7 8) ∧
  decodeWord 0x0FF0000F#32 = .ok (.fence 0 0xF 0xF 0 0) ∧
  decodeWord 0xFFF30293#32 = .ok (.addi 5 6 0xFFF#12) ∧
  decodeWord 0x40435293#32 = .ok (.srai 5 6 4) ∧
  decodeWord 0x12345297#32 = .ok (.auipc 5 0x12345) ∧
  decodeWord 0x407302B3#32 = .ok (.sub 5 6 7) ∧
  decodeWord 0xFE731EE3#32 = .ok (.bne 6 7 0x1FFC#13) ∧
  decodeWord 0x004300E7#32 = .ok (.jalr 1 6 4) ∧
  decodeWord 0xFF9FF06F#32 = .ok (.jal 0 0x1FFFF8#21) ∧
  decodeWord 0x3408D2F3#32 = .ok (.csrrwi 5 0x340 17) ∧
  decodeWord 0x30200073#32 = .ok .mret ∧
  decodeWord 0x12000073#32 = .ok (.sfenceVma 0 0) ∧
  decodeWord 0x00000000#32 = .error .opcode ∧
  decodeWord 0x027302B3#32 = .error .funct7

/-- Decode and encode agree, for every well-formed instruction and every operand. -/
def Obligations.DecodeOfEncode : Prop :=
  ∀ i : Instr, i.WellFormed → decodeWord (encode i) = .ok i

/-- Each accepted word has one meaning and the encoder gives the word back: no bit of it is lost. -/
def Obligations.EncodeOfDecode : Prop :=
  ∀ (w : Word) (i : Instr), decodeWord w = .ok i → i.WellFormed ∧ encode i = w

/-- The decoder accepts exactly the words of the opcode table's rows, each as its row's instruction
(30_encoding.md R148, R149; decision D18 of the spec, log 17). -/
def Obligations.DecodesExactlyTheTable : Prop :=
  (∀ (w : Word) (i : Instr), decodeWord w = .ok i →
    ∃ row ∈ opcodeTable, row.mnemonic = i.mnemonic ∧ w &&& row.mask = row.pattern) ∧
  (∀ (w : Word) (row : OpcodeRow), row ∈ opcodeTable → w &&& row.mask = row.pattern →
    ∃ i : Instr, decodeWord w = .ok i ∧ i.mnemonic = row.mnemonic)

/-- Every bit of every immediate comes from the place of the word R143 gives it; the layouts are general knowledge
of the spec's (GK8; log 16). -/
def Obligations.ImmediateBits : Prop :=
  ∀ (w : Word) (k : Nat), k < 32 →
    (immI (immIField w)).getLsbD k = w.getLsbD (if k < 11 then k + 20 else 31) ∧
    (immS (immSField w)).getLsbD k = w.getLsbD (if k < 5 then k + 7 else if k < 11 then k + 20 else 31) ∧
    (immB (immBField w)).getLsbD k =
      (if k = 0 then false
       else w.getLsbD (if k < 5 then k + 7 else if k < 11 then k + 20 else if k = 11 then 7 else 31)) ∧
    (immU (immUField w)).getLsbD k = (if k < 12 then false else w.getLsbD k) ∧
    (immJ (immJField w)).getLsbD k =
      (if k = 0 then false
       else w.getLsbD (if k < 11 then k + 20 else if k = 11 then 20 else if k < 20 then k else 31))

/-! ### The step -/

/-- A step that fetches runs the decoded instruction, on the state with the interrupt latch done, `pc_inst` at the
instruction and the pc 4 past it (60_exceptions.md R400; `pc_inst` is a register of the model, log 7). -/
def Obligations.StepRunsDecodedInstruction : Prop :=
  ∀ (s : State) (i : Instr), FetchesNext s → decodeWord (s.read32 s.pc) = .ok i →
    step s = exec i { s.pollIrq with pcInst := s.pc, pc := s.pc + 4#32 }

/-- A fetched word that is no instruction takes the IllegalInstruction trap, with the word's address saved, and does
nothing else (30_encoding.md R149; the spec's decision D18, log 17; cause number 2 is its general knowledge, log 16). -/
def Obligations.RejectedWordTraps : Prop :=
  ∀ (s : State) (e : Reject), FetchesNext s → s.mode ≠ .debug → decodeWord (s.read32 s.pc) = .error e →
    ∃ t, step s = .next t ∧
      TrapTaken { s.pollIrq with pcInst := s.pc, pc := s.pc + 4#32 } t false 2 s.pc

/-- A word placed where the next fetch reads it is the instruction the next step runs (log 21). -/
def Obligations.FetchWordIsRun : Prop :=
  ∀ (s : State) (w : Nat) (i : Instr), FetchesNext s → s.pc.toNat < s.memSize →
    decodeTableWord 32 w = some i →
    step (s.withFetchWord 32 w) = exec i (s.withFetchWord 32 w).pollIrq.advance

/-- A step of a running core uses up exactly one answer of `irq()` and leaves `MEM_SIZE` alone
(60_exceptions.md R406; the list of answers is the model's, log 5). -/
def Obligations.StepUsesOneIrqAnswer : Prop :=
  ∀ s t : State, s.status = .run → step s = .next t →
    t.irqInputs = s.irqInputs.tail ∧ t.memSize = s.memSize

/-- A halted core's step changes nothing (60_exceptions.md R429; the spec's decision D17, log 13). -/
def Obligations.HaltedCoreStaysPut : Prop :=
  ∀ s : State, s.status ≠ .run → step s = .next s

/-- No step is ever refused: every instruction of the table has its meaning. That URET too answers a next state,
halted as 45_system.md R372 says, is the model's choice (log 9, DEDUCED): decision D16 of the spec and 93 I3 call
URET a refusal, which the model gives as the end of the run (`RunEnd.refusal`). -/
def Obligations.StepIsNeverRefused : Prop :=
  ∀ (s : State) (r : Refusal), step s ≠ .refused r

/-! ### Interrupts -/

/-- The latch: a nonzero `irq()` sets SEIP, a zero one leaves it, no other bit of any CSR changes, and the one answer
is used up (60_exceptions.md R406; the spec's decision D8, log 17). That the answers are a list whose first is this
step's, 0 after its end, is the model's choice (log 5). -/
def Obligations.LatchSetsOnlySeip : Prop :=
  ∀ s : State,
    (∀ k : Nat, (s.pollIrq.csrRaw 0x344#12).getLsbD k =
      if k = 9 ∧ s.irqInputs.headD 0#32 ≠ 0#32 then true else (s.csrRaw 0x344#12).getLsbD k) ∧
    (∀ a : CsrAddr, a ≠ 0x344#12 → s.pollIrq.csrRaw a = s.csrRaw a) ∧
    s.pollIrq.irqInputs = s.irqInputs.tail ∧
    SameRegisters s s.pollIrq ∧ SameMemory s s.pollIrq ∧ SameModes s s.pollIrq ∧
    s.pollIrq.pc = s.pc ∧ s.pollIrq.pcInst = s.pcInst ∧ s.pollIrq.memSize = s.memSize

/-- The first eligible interrupt in the order MEI, MSI, MTI, SEI, SSI, STI is selected, none where none is eligible;
eligible is pending and enabled, by the interrupt's own bit (60_exceptions.md R407, R408; the spec's decision D5,
log 17). -/
def Obligations.SelectsFirstEligibleInterrupt : Prop :=
  ∀ s : State,
    let order : List Interrupt := [.machineExternal, .machineSoftware, .machineTimer, .supervisorExternal,
      .supervisorSoftware, .supervisorTimer]
    let eligible : Interrupt → Prop := fun i =>
      (s.csrRaw 0x344#12).getLsbD i.code = true ∧ (s.csrRaw 0x304#12).getLsbD i.code = true
    order.map Interrupt.code = [11, 3, 7, 9, 1, 5] ∧
    (∀ i : Interrupt, s.selected = some i ↔
      ∃ before after, order = before ++ i :: after ∧ eligible i ∧ ∀ j ∈ before, ¬ eligible j) ∧
    (s.selected = none ↔ ∀ i ∈ order, ¬ eligible i)

/-- The global gate by mode: MIE in M, SIE in S, open in U (60_exceptions.md R409; the spec's decision D6, log 17). -/
def Obligations.GateByMode : Prop :=
  ∀ s : State,
    (s.mode = .machine → s.deliverable = if (s.csrRaw 0x300#12).getLsbD 3 then s.selected else none) ∧
    (s.mode = .supervisor → s.deliverable = if (s.csrRaw 0x300#12).getLsbD 1 then s.selected else none) ∧
    (s.mode = .user → s.deliverable = s.selected)

/-- A deliverable interrupt is taken in place of a fetch: p is the latched state with the interrupt's pending bit
cleared and nothing else changed, and the step is the trap taken from p with the pc saved (60_exceptions.md R410,
R413; decisions D7, D30 of the spec, log 17; the list of answers is the model's, log 5). -/
def Obligations.DeliverableInterruptIsTaken : Prop :=
  ∀ (s : State) (i : Interrupt), s.status = .run → s.mode ≠ .debug → s.pollIrq.deliverable = some i →
    ∃ p t, step s = .next t ∧ TrapTaken p t true i.code s.pc ∧
      (∀ k : Nat, (p.csrRaw 0x344#12).getLsbD k =
        if k = i.code then false else (s.pollIrq.csrRaw 0x344#12).getLsbD k) ∧
      (∀ a : CsrAddr, a ≠ 0x344#12 → p.csrRaw a = s.csrRaw a) ∧
      SameRegisters s p ∧ SameMemory s p ∧ SameModes s p ∧ SameInputs s.pollIrq p ∧
      p.pc = s.pc ∧ p.pcInst = s.pcInst ∧ p.memSize = s.memSize ∧ p.irqInputs = s.irqInputs.tail

/-! ### Traps -/

/-- Trap entry for every cause, each with its code written out: where it is handled (bit code of 0x302 for an
exception, of 0x303 for an interrupt), the cause value (bit 31 for an interrupt), what else it saves, and that
nothing else changes; from Debug it stops (60_exceptions.md R401 to R403, R411, R412; the spec's decision D4, logs
10 and 17; the codes are its general knowledge, log 16). -/
def Obligations.TrapEntryEffect : Prop :=
  let causes : List (Cause × Bool × Nat) :=
    [(.exception .illegalInstruction, false, 2), (.exception .breakpoint, false, 3),
     (.exception .environmentCallFromU, false, 8), (.exception .environmentCallFromS, false, 9),
     (.exception .environmentCallFromM, false, 11),
     (.interrupt .userSoftware, true, 0), (.interrupt .supervisorSoftware, true, 1),
     (.interrupt .machineSoftware, true, 3), (.interrupt .userTimer, true, 4), (.interrupt .supervisorTimer, true, 5),
     (.interrupt .machineTimer, true, 7), (.interrupt .userExternal, true, 8),
     (.interrupt .supervisorExternal, true, 9), (.interrupt .machineExternal, true, 11)]
  ∀ (c : Cause) (epc : Word) (s : State),
    (∃ interrupt code, (c, interrupt, code) ∈ causes) ∧
    (s.mode ≠ .debug → ∀ (interrupt : Bool) (code : Nat), (c, interrupt, code) ∈ causes →
      ∃ t, trapEntry c epc s = .next t ∧ TrapTaken s t interrupt code epc) ∧
    (s.mode = .debug → trapEntry c epc s = .fault .trapFromDebug)

/-- A trap never lowers the privilege mode (60_exceptions.md R412, which the spec derives). -/
def Obligations.TrapNeverLowersPrivilege : Prop :=
  ∀ (c : Cause) (epc : Word) (s t : State), trapEntry c epc s = .next t →
    ∃ before after : BitVec 2, s.mode.enc = some before ∧ t.mode.enc = some after ∧ before ≤ after

/-- The vector address: base without its low two bits, and 4 times the code in vectored mode, for exceptions too
(60_exceptions.md R414; the spec's decision D14, log 17). -/
def Obligations.VectorAddressForm : Prop :=
  ∀ (tvec : Word) (code : Nat),
    (vectorAddress tvec code).toNat =
      (tvec.toNat / 4 * 4 + if tvec.toNat % 2 = 1 then 4 * code else 0) % 2 ^ 32 ∧
    (vectorAddress tvec code).toNat % 4 = 0

/-- MRET right after a trap to Machine mode goes back to the saved pc and mode and restores MIE
(60_exceptions.md R417, which the spec derives from the source's round-trip property). -/
def Obligations.MretUndoesMachineTrap : Prop :=
  ∀ (c : Cause) (epc : Word) (s t : State), trapEntry c epc s = .next t → t.mode = .machine →
    ∃ u, exec .mret t = .next u ∧ u.pc = epc ∧ u.mode = s.mode ∧
      (u.csrRaw 0x300#12).getLsbD 3 = (s.csrRaw 0x300#12).getLsbD 3 ∧
      SameRegisters s u ∧ SameMemory s u

/-- SRET right after a trap to Supervisor mode goes back to the saved pc and mode and restores SIE
(60_exceptions.md R411; 45_system.md R373; decision D29 of the spec, log 17). -/
def Obligations.SretUndoesSupervisorTrap : Prop :=
  ∀ (c : Cause) (epc : Word) (s t : State), trapEntry c epc s = .next t → t.mode = .supervisor →
    ∃ u, exec .sret t = .next u ∧ u.pc = epc ∧ u.mode = s.mode ∧
      (u.csrRaw 0x300#12).getLsbD 1 = (s.csrRaw 0x300#12).getLsbD 1 ∧
      SameRegisters s u ∧ SameMemory s u

/-! ### Environment and privileged instructions -/

/-- ECALL takes the exception of its mode (cause 8, 9 or 11) and EBREAK the breakpoint exception (cause 3), the
instruction's own address saved (45_system.md R370, R371; the cause numbers are general knowledge of the spec's,
GK16, log 16). -/
def Obligations.CallAndBreakTrap : Prop :=
  ∀ s : State,
    (s.mode = .user → ∃ t, exec .ecall s = .next t ∧ TrapTaken s t false 8 s.pcInst) ∧
    (s.mode = .supervisor → ∃ t, exec .ecall s = .next t ∧ TrapTaken s t false 9 s.pcInst) ∧
    (s.mode = .machine → ∃ t, exec .ecall s = .next t ∧ TrapTaken s t false 11 s.pcInst) ∧
    (s.mode ≠ .debug → ∃ t, exec .ebreak s = .next t ∧ TrapTaken s t false 3 s.pcInst)

/-- URET puts the pc back at itself and halts the core as unimplemented; nothing else changes (45_system.md R372;
the spec's decision D16, log 9). -/
def Obligations.UretHaltsAtItself : Prop :=
  ∀ s : State, ∃ t, exec .uret s = .next t ∧ t.status = .haltUnimplemented ∧ t.pc = s.pcInst ∧
    t.mode = s.mode ∧ t.prevMode = s.prevMode ∧
    SameRegisters s t ∧ SameCsrs s t ∧ SameMemory s t ∧ SameInputs s t

/-- SRET in S or M: the pc from sepc, the mode from SPP, SIE from SPIE, SPIE 1, SPP 0, and nothing else
(45_system.md R373; the spec's decision D29 and conflict C10, log 17). -/
def Obligations.SretEffect : Prop :=
  ∀ s : State, s.mode = .supervisor ∨ s.mode = .machine →
    ∃ t, exec .sret s = .next t ∧ t.pc = s.csrRaw 0x141#12 ∧
      t.mode = (if (s.csrRaw 0x300#12).getLsbD 8 then .supervisor else .user) ∧
      (∀ k : Nat, (t.csrRaw 0x300#12).getLsbD k =
        if k = 1 then (s.csrRaw 0x300#12).getLsbD 5 else if k = 5 then true else if k = 8 then false
        else (s.csrRaw 0x300#12).getLsbD k) ∧
      (∀ a : CsrAddr, a ≠ 0x300#12 → t.csrRaw a = s.csrRaw a) ∧
      SameRegisters s t ∧ SameMemory s t ∧ SameInputs s t ∧ t.prevMode = s.prevMode ∧ t.status = s.status

/-- MRET in M with a legal MPP: the pc from mepc, the mode from MPP, MIE from MPIE, MPIE 1, MPP 0, and nothing else
(45_system.md R374; decisions D15 and D29 of the spec, logs 8 and 17). -/
def Obligations.MretEffect : Prop :=
  ∀ s : State, s.mode = .machine → (s.csrRaw 0x300#12).extractLsb' 11 2 ≠ 2#2 →
    ∃ t, exec .mret s = .next t ∧ t.pc = s.csrRaw 0x341#12 ∧
      t.mode.enc = some ((s.csrRaw 0x300#12).extractLsb' 11 2) ∧
      (∀ k : Nat, (t.csrRaw 0x300#12).getLsbD k =
        if k = 3 then (s.csrRaw 0x300#12).getLsbD 7 else if k = 7 then true
        else if k = 11 ∨ k = 12 then false else (s.csrRaw 0x300#12).getLsbD k) ∧
      (∀ a : CsrAddr, a ≠ 0x300#12 → t.csrRaw a = s.csrRaw a) ∧
      SameRegisters s t ∧ SameMemory s t ∧ SameInputs s t ∧ t.prevMode = s.prevMode ∧ t.status = s.status

/-- MRET in M with MPP = 2 stops, as the halt whose state the spec leaves unspecified (45_system.md R374; log 8). -/
def Obligations.MretStopsOnInvalidMpp : Prop :=
  ∀ s : State, s.mode = .machine → (s.csrRaw 0x300#12).extractLsb' 11 2 = 2#2 →
    exec .mret s = .fault .mretInvalidMpp

/-- SRET in U and MRET in U or S raise IllegalInstruction (45_system.md R373, R374; cause number 2 is the spec's
general knowledge, log 16). -/
def Obligations.ReturnsNeedPrivilege : Prop :=
  ∀ s : State,
    (s.mode = .user →
      ∃ t, exec .sret s = .next t ∧ TrapTaken s t false 2 s.pcInst) ∧
    (s.mode = .user ∨ s.mode = .supervisor →
      ∃ t, exec .mret s = .next t ∧ TrapTaken s t false 2 s.pcInst)

/-- FENCE changes nothing but the pc, which becomes pc_inst + 4, whatever its ignored fields hold and in every mode
(41_misc_mem.md R230). -/
def Obligations.FenceChangesOnlyPc : Prop :=
  ∀ (fm pred succ : BitVec 4) (rs1 rd : Reg) (s : State),
    exec (.fence fm pred succ rs1 rd) s = .next s ∧
    (FetchesNext s → decodeWord (s.read32 s.pc) = .ok (.fence fm pred succ rs1 rd) →
      step s = .next { s.pollIrq with pcInst := s.pc, pc := s.pc + 4#32 })

/-- FENCE.I, WFI and SFENCE.VMA do nothing, in every mode (41_misc_mem.md R231; 45_system.md R375, R376; decisions
D18, D19 and D20 of the spec, log 17). -/
def Obligations.OtherNoOpsChangeNothing : Prop :=
  ∀ (imm : BitVec 12) (rs1 rs2 rd : Reg) (s : State),
    exec (.fenceI imm rs1 rd) s = .next s ∧ exec .wfi s = .next s ∧ exec (.sfenceVma rs1 rs2) s = .next s

/-! ### Loads, stores and memory -/

/-- LB, LH, LW, LBU, LHU: rd gets the extended byte, the halfword at ea & ~1 or the word at ea & ~3, byte by byte
little-endian, 0 at or above MEM_SIZE, and nothing else changes (40_loads_stores.md R202 to R206; the byte order and
the alignment are decisions D1 and D2 of the spec, logs 17 and 11). MEM_SIZE is legal, as Inv says. -/
def Obligations.LoadResults : Prop :=
  ∀ (s : State) (rd rs1 : Reg) (imm : BitVec 12), Config.ValidMemSize s.memSize →
    let ea := s.x rs1 + imm.signExtend 32
    let h := ea &&& 0xFFFFFFFE#32
    let w := ea &&& 0xFFFFFFFC#32
    let half : BitVec 16 := s.read8 (h + 1#32) ++ s.read8 h
    let word : Word := s.read8 (w + 3#32) ++ s.read8 (w + 2#32) ++ s.read8 (w + 1#32) ++ s.read8 w
    (∃ t, exec (.lb rd rs1 imm) s = .next t ∧ RegisterResult s t rd ((s.read8 ea).signExtend 32)) ∧
    (∃ t, exec (.lh rd rs1 imm) s = .next t ∧ RegisterResult s t rd (half.signExtend 32)) ∧
    (∃ t, exec (.lw rd rs1 imm) s = .next t ∧ RegisterResult s t rd word) ∧
    (∃ t, exec (.lbu rd rs1 imm) s = .next t ∧ RegisterResult s t rd ((s.read8 ea).setWidth 32)) ∧
    (∃ t, exec (.lhu rd rs1 imm) s = .next t ∧ RegisterResult s t rd (half.setWidth 32)) ∧
    (s.memSize ≤ ea.toNat →
      ∀ i ∈ ([.lb rd rs1 imm, .lh rd rs1 imm, .lw rd rs1 imm, .lbu rd rs1 imm, .lhu rd rs1 imm] : List Instr),
        ∃ t, exec i s = .next t ∧ RegisterResult s t rd 0#32)

/-- SB writes the low byte of rs2 at x[rs1] + imm_S when that is below MEM_SIZE, and changes nothing else
(40_loads_stores.md R207). -/
def Obligations.StoreByteResult : Prop :=
  ∀ (s : State) (rs1 rs2 : Reg) (imm : BitVec 12),
    let ea := s.x rs1 + imm.signExtend 32
    ∃ t, exec (.sb rs1 rs2 imm) s = .next t ∧ StoreResult s t (ea.toNat < s.memSize) ea 1 (s.x rs2)

/-- SH and SW write the low halfword or the word of rs2, least significant byte first, at the aligned unit that
contains x[rs1] + imm_S when that is below MEM_SIZE, and change nothing else (40_loads_stores.md R208, R209; byte
order and alignment are decisions D1 and D2 of the spec, logs 11 and 17). -/
def Obligations.StoreHalfAndWordResults : Prop :=
  ∀ (s : State) (rs1 rs2 : Reg) (imm : BitVec 12), Config.ValidMemSize s.memSize →
    let ea := s.x rs1 + imm.signExtend 32
    (∃ t, exec (.sh rs1 rs2 imm) s = .next t ∧
      StoreResult s t (ea.toNat < s.memSize) (ea &&& 0xFFFFFFFE#32) 2 (s.x rs2)) ∧
    (∃ t, exec (.sw rs1 rs2 imm) s = .next t ∧
      StoreResult s t (ea.toNat < s.memSize) (ea &&& 0xFFFFFFFC#32) 4 (s.x rs2))

/-- After a word is stored at an aligned backed address, every width reads its part of it (20_memory.md R118, which
the spec derives). -/
def Obligations.StoredWordReadsBackInEveryWidth : Prop :=
  ∀ (s : State) (a v : Word), Config.ValidMemSize s.memSize → a.toNat % 4 = 0 → a.toNat < s.memSize →
    (s.write32 a v).read32 a = v ∧
    (s.write32 a v).read16 a = v.extractLsb' 0 16 ∧
    (s.write32 a v).read16 (a + 2#32) = v.extractLsb' 16 16 ∧
    ∀ k : Nat, k < 4 → (s.write32 a v).read8 (a + BitVec.ofNat 32 k) = v.extractLsb' (8 * k) 8

/-- A word stored where the pc points is the word the next fetch reads, with no fence (20_memory.md R116, which the
spec derives; aligned units by D2 and D3, logs 11 and 12). -/
def Obligations.StoreIsSeenByNextFetch : Prop :=
  ∀ (s : State) (rs1 rs2 : Reg) (imm : BitVec 12),
    (s.x rs1 + imm.signExtend 32) &&& 0xFFFFFFFC#32 = s.pc &&& 0xFFFFFFFC#32 →
    s.pc.toNat < s.memSize → (s.x rs1 + imm.signExtend 32).toNat < s.memSize →
    ∃ t, exec (.sw rs1 rs2 imm) s = .next t ∧ t.pc = s.pc ∧ t.fetchWord = s.x rs2

/-- The fetch of a misaligned pc reads the aligned word that contains it, and a fetch at or above MEM_SIZE reads 0
and traps as an illegal instruction (20_memory.md R106; the spec's decision D3, log 12; cause number 2 is its
general knowledge, log 16). -/
def Obligations.FetchAlignsDown : Prop :=
  ∀ s : State, Config.ValidMemSize s.memSize →
    s.fetchWord = s.read32 (s.pc &&& 0xFFFFFFFC#32) ∧
    (s.memSize ≤ s.pc.toNat → s.fetchWord = 0#32 ∧
      (FetchesNext s → s.mode ≠ .debug → ∃ t, step s = .next t ∧
        TrapTaken { s.pollIrq with pcInst := s.pc, pc := s.pc + 4#32 } t false 2 s.pc))

/-! ### Integer computation -/

/-- The register-immediate instructions: rd's value by integer arithmetic on the operands, and nothing else changes
(42_integer_computational.md R244 to R252; SLTIU's sign extension, R246, is general knowledge of the spec's, GK11,
log 16). -/
def Obligations.RegisterImmediateResults : Prop :=
  ∀ (s : State) (rd rs1 : Reg) (imm : BitVec 12) (shamt : BitVec 5),
    let x := s.x rs1
    let m := imm.signExtend 32
    (∃ t, exec (.addi rd rs1 imm) s = .next t ∧ RegisterResult s t rd (BitVec.ofInt 32 (x.toInt + imm.toInt))) ∧
    (∃ t, exec (.slti rd rs1 imm) s = .next t ∧
      RegisterResult s t rd (if x.toInt < imm.toInt then 1#32 else 0#32)) ∧
    (∃ t, exec (.sltiu rd rs1 imm) s = .next t ∧
      RegisterResult s t rd (if x.toNat < m.toNat then 1#32 else 0#32)) ∧
    (∃ t, exec (.xori rd rs1 imm) s = .next t ∧ RegisterResult s t rd (x ^^^ m)) ∧
    (∃ t, exec (.ori rd rs1 imm) s = .next t ∧ RegisterResult s t rd (x ||| m)) ∧
    (∃ t, exec (.andi rd rs1 imm) s = .next t ∧ RegisterResult s t rd (x &&& m)) ∧
    (∃ t, exec (.slli rd rs1 shamt) s = .next t ∧
      RegisterResult s t rd (BitVec.ofNat 32 (x.toNat * 2 ^ shamt.toNat))) ∧
    (∃ t, exec (.srli rd rs1 shamt) s = .next t ∧
      RegisterResult s t rd (BitVec.ofNat 32 (x.toNat / 2 ^ shamt.toNat))) ∧
    (∃ t, exec (.srai rd rs1 shamt) s = .next t ∧
      RegisterResult s t rd (BitVec.ofInt 32 (x.toInt / 2 ^ shamt.toNat)))

/-- The register-register instructions: rd's value by integer arithmetic on the old operands, shift amounts modulo
32, and nothing else changes (42_integer_computational.md R254 to R263). -/
def Obligations.RegisterRegisterResults : Prop :=
  ∀ (s : State) (rd rs1 rs2 : Reg),
    let x := s.x rs1
    let y := s.x rs2
    (∃ t, exec (.add rd rs1 rs2) s = .next t ∧ RegisterResult s t rd (BitVec.ofInt 32 (x.toInt + y.toInt))) ∧
    (∃ t, exec (.sub rd rs1 rs2) s = .next t ∧ RegisterResult s t rd (BitVec.ofInt 32 (x.toInt - y.toInt))) ∧
    (∃ t, exec (.sll rd rs1 rs2) s = .next t ∧
      RegisterResult s t rd (BitVec.ofNat 32 (x.toNat * 2 ^ (y.toNat % 32)))) ∧
    (∃ t, exec (.slt rd rs1 rs2) s = .next t ∧
      RegisterResult s t rd (if x.toInt < y.toInt then 1#32 else 0#32)) ∧
    (∃ t, exec (.sltu rd rs1 rs2) s = .next t ∧
      RegisterResult s t rd (if x.toNat < y.toNat then 1#32 else 0#32)) ∧
    (∃ t, exec (.xor rd rs1 rs2) s = .next t ∧ RegisterResult s t rd (x ^^^ y)) ∧
    (∃ t, exec (.srl rd rs1 rs2) s = .next t ∧
      RegisterResult s t rd (BitVec.ofNat 32 (x.toNat / 2 ^ (y.toNat % 32)))) ∧
    (∃ t, exec (.sra rd rs1 rs2) s = .next t ∧
      RegisterResult s t rd (BitVec.ofInt 32 (x.toInt / 2 ^ (y.toNat % 32)))) ∧
    (∃ t, exec (.or rd rs1 rs2) s = .next t ∧ RegisterResult s t rd (x ||| y)) ∧
    (∃ t, exec (.and rd rs1 rs2) s = .next t ∧ RegisterResult s t rd (x &&& y))

/-- AUIPC adds imm_U to the address of the AUIPC itself, modulo 2^32, and nothing else changes
(42_integer_computational.md R253). -/
def Obligations.AuipcResult : Prop :=
  ∀ (s : State) (rd : Reg) (imm20 : BitVec 20),
    ∃ t, exec (.auipc rd imm20) s = .next t ∧
      RegisterResult s t rd (BitVec.ofNat 32 (s.pcInst.toNat + imm20.toNat * 2 ^ 12))

/-- LUI puts its immediate in bits 31:12 of rd, clears the low 12 bits, and changes nothing else
(42_integer_computational.md R264; that it writes the U immediate is general knowledge of the spec's, GK12, log 16). -/
def Obligations.LuiResult : Prop :=
  ∀ (s : State) (rd : Reg) (imm20 : BitVec 20),
    ∃ t, exec (.lui rd imm20) s = .next t ∧ RegisterResult s t rd (BitVec.ofNat 32 (imm20.toNat * 2 ^ 12))

/-! ### Control transfer -/

/-- A branch whose condition holds sets the pc to its own address plus the offset; otherwise the pc stays where the
fetch left it; nothing else changes (43_control_transfer.md R301 to R306). -/
def Obligations.BranchResults : Prop :=
  ∀ (s : State) (rs1 rs2 : Reg) (imm : BitVec 13),
    let x := s.x rs1
    let y := s.x rs2
    let target := s.pcInst + imm.signExtend 32
    (∃ t, exec (.beq rs1 rs2 imm) s = .next t ∧ PcResult s t (if x = y then target else s.pc)) ∧
    (∃ t, exec (.bne rs1 rs2 imm) s = .next t ∧ PcResult s t (if x ≠ y then target else s.pc)) ∧
    (∃ t, exec (.blt rs1 rs2 imm) s = .next t ∧ PcResult s t (if x.toInt < y.toInt then target else s.pc)) ∧
    (∃ t, exec (.bge rs1 rs2 imm) s = .next t ∧ PcResult s t (if y.toInt ≤ x.toInt then target else s.pc)) ∧
    (∃ t, exec (.bltu rs1 rs2 imm) s = .next t ∧ PcResult s t (if x.toNat < y.toNat then target else s.pc)) ∧
    (∃ t, exec (.bgeu rs1 rs2 imm) s = .next t ∧ PcResult s t (if y.toNat ≤ x.toNat then target else s.pc))

/-- JAL links pc_inst + 4 and jumps to pc_inst + imm_J (43_control_transfer.md R308). -/
def Obligations.JalResult : Prop :=
  ∀ (s : State) (rd : Reg) (imm : BitVec 21),
    ∃ t, exec (.jal rd imm) s = .next t ∧
      LinkResult s t rd (s.pcInst + 4#32) (s.pcInst + imm.signExtend 32)

/-- JALR links pc_inst + 4 and jumps to the old x[rs1] + imm_I with bit 0 cleared (43_control_transfer.md R307; base
and link are general knowledge of the spec's, GK13, and the order its decision D24, logs 16 and 17). -/
def Obligations.JalrResult : Prop :=
  ∀ (s : State) (rd rs1 : Reg) (imm : BitVec 12),
    ∃ t, exec (.jalr rd rs1 imm) s = .next t ∧
      LinkResult s t rd (s.pcInst + 4#32)
        (BitVec.ofNat 32 ((s.x rs1 + imm.signExtend 32).toNat / 2 * 2))

/-! ### CSR access -/

/-- The CSR instructions: allowed where enc(mode) reaches the address's level, they give rd the value read and write
the updated one; elsewhere they raise IllegalInstruction and do nothing else (44_csr.md R332 to R339; decisions D9,
D11 and D24 of the spec, log 17; cause number 2 is its general knowledge, log 16). -/
def Obligations.CsrInstructionResults : Prop :=
  ∀ (s : State) (rd rs1 : Reg) (a : CsrAddr) (zimm : BitVec 5) (level : BitVec 2), s.mode.enc = some level →
    (a.extractLsb' 8 2 ≤ level →
      (∃ t, exec (.csrrw rd a rs1) s = .next t ∧ CsrResult s t rd a (s.x rs1)) ∧
      (∃ t, exec (.csrrs rd a rs1) s = .next t ∧ CsrResult s t rd a (s.csrRead a ||| s.x rs1)) ∧
      (∃ t, exec (.csrrc rd a rs1) s = .next t ∧ CsrResult s t rd a (s.csrRead a &&& ~~~s.x rs1)) ∧
      (∃ t, exec (.csrrwi rd a zimm) s = .next t ∧ CsrResult s t rd a (zimm.setWidth 32)) ∧
      (∃ t, exec (.csrrsi rd a zimm) s = .next t ∧ CsrResult s t rd a (s.csrRead a ||| zimm.setWidth 32)) ∧
      (∃ t, exec (.csrrci rd a zimm) s = .next t ∧ CsrResult s t rd a (s.csrRead a &&& ~~~zimm.setWidth 32))) ∧
    (¬ a.extractLsb' 8 2 ≤ level →
      ∀ i ∈ ([.csrrw rd a rs1, .csrrs rd a rs1, .csrrc rd a rs1, .csrrwi rd a zimm, .csrrsi rd a zimm,
          .csrrci rd a zimm] : List Instr),
        ∃ t, exec i s = .next t ∧ TrapTaken s t false 2 s.pcInst)

/-- What `CSRWrite` does, bit by bit: only the writable bits of the storage the address names change, and the
written value's bits take their place (44_csr.md R331; decisions D10, D12 and D13 of the spec, log 17). -/
def Obligations.CsrWriteChangesWritableBits : Prop :=
  ∀ (s : State) (a b : CsrAddr) (v : Word) (k : Nat),
    (b = csrStorage a ∧ csrWritable s a k →
      ((s.csrWrite a v).csrRaw b).getLsbD k = v.getLsbD k) ∧
    (¬ (b = csrStorage a ∧ csrWritable s a k) →
      ((s.csrWrite a v).csrRaw b).getLsbD k = (s.csrRaw b).getLsbD k)

/-- What `CSRRead` gives, bit by bit: the storage the address names, 0 where a view hides the bit (44_csr.md R330;
decisions D12 and D13 of the spec, log 17). -/
def Obligations.CsrReadShowsVisibleBits : Prop :=
  ∀ (s : State) (a : CsrAddr) (k : Nat), k < 32 →
    ((s.csrRead a).getLsbD k = true ↔
      (s.csrRaw (csrStorage a)).getLsbD k = true ∧ csrVisible s a k)

/-- Writing back the value just read leaves every CSR unchanged, through a view too (44_csr.md R340, which the spec
derives). -/
def Obligations.CsrWriteBackIsSilent : Prop :=
  ∀ (s : State) (a b : CsrAddr), (s.csrWrite a (s.csrRead a)).csrRaw b = s.csrRaw b

/-- No step changes misa, an identity register, or the storage at a view's address (44_csr.md R340; 10_state.md R73;
decision D10 of the spec, log 17). -/
def Obligations.FixedCsrsNeverChange : Prop :=
  ∀ s t : State, step s = .next t →
    ∀ a : CsrAddr, csrFixed a ∨ a = 0x100#12 ∨ a = 0x104#12 ∨ a = 0x144#12 → t.csrRaw a = s.csrRaw a

/-! ### Reset and boot -/

/-- Reset from any state leaves every general register 0, the pc at the entry point, Machine mode, and every CSR 0
but misa (10_state.md R34, R39, R42, R47). -/
def Obligations.ResetState : Prop :=
  ∀ (s : State) (entry : Word),
    (∀ r : Reg, (s.applyReset entry).x r = 0#32) ∧
    (s.applyReset entry).pc = entry ∧
    (s.applyReset entry).mode = .machine ∧
    (∀ a : CsrAddr, (s.applyReset entry).csrRaw a = if a = 0x301#12 then 0x40040100#32 else 0#32)

/-- Reset ends every halt and leaves memory, MEM_SIZE and the answers to come alone (10_state.md R43;
70_reset_and_hazards.md R470, R472; decisions D17, D23 and D33 of the spec, log 17), and State.reset is reset at the
entry point of log 2. -/
def Obligations.ResetEndsHaltsAndKeepsMemory : Prop :=
  (∀ (s : State) (entry : Word),
    (s.applyReset entry).status = .run ∧ SameMemory s (s.applyReset entry) ∧
    (s.applyReset entry).memSize = s.memSize ∧ (s.applyReset entry).irqInputs = s.irqInputs) ∧
  State.reset = State.reset.applyReset Config.defaultResetPc

/-- After the boot sequence memory holds the image, and 0 at every other address (70_reset_and_hazards.md R472, R473;
20_memory.md R115; the spec's decision D33 and the model's loader, logs 3 and 14). -/
def Obligations.BootedMemoryHoldsImage : Prop :=
  ∀ (n : Nat) (image : List Host.Cell) (entry : Word) (irqs : List Word), Config.ValidMemSize n →
    (image.map Prod.fst).Nodup → (∀ c ∈ image, c.1 < n) →
    (∀ c ∈ image, (State.boot n image entry irqs).read8 (BitVec.ofNat 32 c.1) = c.2) ∧
    (∀ a : Word, a.toNat ∉ image.map Prod.fst → (State.boot n image entry irqs).read8 a = 0#8)

/-! ### Invariants and whole-machine rules -/

/-- The invariant holds at reset. -/
def Obligations.InvariantAtReset : Prop := Inv State.reset

/-- The invariant holds after the boot sequence, whatever the image, the entry point and the inputs. -/
def Obligations.InvariantAtBoot : Prop :=
  ∀ (n : Nat) (image : List Host.Cell) (entry : Word) (irqs : List Word), Config.ValidMemSize n →
    Inv (State.boot n image entry irqs)

/-- Every step keeps the invariant: canonical memory below a legal MEM_SIZE, a canonical CSR bank with its fixed
registers, and a mode that is never Debug. -/
def Obligations.StepKeepsInvariant : Prop :=
  ∀ s t : State, Inv s → step s = .next t → Inv t

/-- The invariant holds along every run from a state that meets it. -/
def Obligations.RunKeepsInvariant : Prop :=
  ∀ (k : Nat) (s t : State), Inv s → Host.Core.run core k s = .next t → Inv t

/-- In a state that meets the invariant the only step that stops is MRET in M mode with MPP = 2, the fatal condition
(a) of R427; condition (b) is never reached (60_exceptions.md R427; the spec's decision D15, logs 8 and 10). -/
def Obligations.OnlyInvalidMretStops : Prop :=
  ∀ (s : State) (f : Fault), Inv s → step s = .fault f →
    f = .mretInvalidMpp ∧ s.mode = .machine ∧ decodeWord (s.read32 s.pc) = .ok .mret ∧
      (s.csrRaw 0x300#12).extractLsb' 11 2 = 2#2

/-- The mode changes only by reset (to M), by trap entry (to S or M), by SRET (to U or S) and by MRET (to U, S or M)
(60_exceptions.md R420). -/
def Obligations.ModeChangesOnlyByTrapOrReturn : Prop :=
  (∀ s t : State, step s = .next t → t.mode ≠ s.mode →
    (∃ (c : Cause) (epc : Word) (p : State), p.mode = s.mode ∧ trapEntry c epc p = .next t ∧
      (t.mode = .supervisor ∨ t.mode = .machine)) ∨
    (decodeWord (s.read32 s.pc) = .ok .sret ∧ (t.mode = .user ∨ t.mode = .supervisor)) ∨
    (decodeWord (s.read32 s.pc) = .ok .mret ∧
      (t.mode = .user ∨ t.mode = .supervisor ∨ t.mode = .machine))) ∧
  (∀ (s : State) (entry : Word), (s.applyReset entry).mode = .machine)

/-- A step changes at most the register the fetched word's rd field names, and never x0 (10_state.md R31;
30_encoding.md R146; the spec's decision D26, log 17). -/
def Obligations.StepChangesOnlyRd : Prop :=
  ∀ (s t : State) (r : Reg), step s = .next t → t.x r ≠ s.x r → r = rdField (s.read32 s.pc) ∧ r ≠ 0

/-- Only SB, SH and SW change memory (20_memory.md R108). -/
def Obligations.OnlyStoresChangeMemory : Prop :=
  ∀ s t : State, step s = .next t → t.mem ≠ s.mem →
    ∃ i : Instr, decodeWord (s.read32 s.pc) = .ok i ∧ isStore i = true

/-- An instruction run in U mode that does not trap changes no CSR of a higher level (44_csr.md R332;
60_exceptions.md R419; decision D9 of the spec, log 17). -/
def Obligations.UserModeKeepsPrivilegedCsrs : Prop :=
  ∀ (s t : State) (i : Instr), s.mode = .user → exec i s = .next t → t.mode = .user →
    ∀ a : CsrAddr, a.extractLsb' 8 2 ≠ 0#2 → t.csrRaw a = s.csrRaw a

/-- An instruction outside the privileged and CSR ones does the same whatever the mode and the CSRs: no translation,
no protection, no decoding by mode (20_memory.md R111; 30_encoding.md R152). -/
def Obligations.UnprivilegedCodeIgnoresModeAndCsrs : Prop :=
  ∀ (i : Instr) (s t : State) (m : Mode) (bank : CsrBank), isPrivileged i = false → exec i s = .next t →
    exec i { s with mode := m, csr := bank } = .next { t with mode := m, csr := bank }

/-- The expansion of `li` leaves the constant in rd and changes nothing else (30_encoding.md R155; the expansion is
general knowledge of the spec's, GK10, log 16). -/
def Obligations.LiExpansionLoadsConstant : Prop :=
  ∀ (s : State) (rd : Reg) (imm : Word),
    ∃ t, execAll (Pseudo.li rd imm).expand s = .next t ∧ RegisterResult s t rd imm
end

