-- ==== Sys2Proof/Laws/Sparse.lean ====
section
/-! SUPPORT. Sparse storage: a read after a write gives the value written and leaves every other address alone,
and every write keeps the canonical form. -/

namespace Sys2Proof.Machine

variable {w : Nat}

theorem sparseRead_erase_same (a : Nat) (l : List (Nat × BitVec w)) : sparseRead a (sparseErase a l) = 0#w := by
  induction l with
  | nil => rfl
  | cons c rest ih =>
    by_cases h : c.1 = a
    · simpa [sparseErase, h] using ih
    · simpa [sparseErase, h, sparseRead] using ih

theorem sparseRead_erase_other {a b : Nat} (h : b ≠ a) (l : List (Nat × BitVec w)) :
    sparseRead b (sparseErase a l) = sparseRead b l := by
  induction l with
  | nil => rfl
  | cons c rest ih =>
    by_cases hc : c.1 = a
    · have : c.1 ≠ b := fun hb => h (hb.symm.trans hc)
      simpa [sparseErase, hc, sparseRead, this, Ne.symm h] using ih
    · by_cases hb : c.1 = b
      · simp [sparseErase, sparseRead, hb, h]
      · simpa [sparseErase, hc, sparseRead, hb] using ih

theorem sparseRead_insert (a : Nat) (v : BitVec w) (b : Nat) {l : List (Nat × BitVec w)} (hl : ∀ c ∈ l, c.1 ≠ a) :
    sparseRead b (sparseInsert a v l) = if b = a then v else sparseRead b l := by
  induction l with
  | nil =>
    by_cases h : b = a
    · simp [sparseInsert, sparseRead, h]
    · simp [sparseInsert, sparseRead, h, Ne.symm h]
  | cons c rest ih =>
    have hc : c.1 ≠ a := hl c (by simp)
    have ih := ih (fun d hd => hl d (by simp [hd]))
    unfold sparseInsert
    split
    · by_cases h : b = a
      · simp [sparseRead, h]
      · simp [sparseRead, h, Ne.symm h]
    · by_cases h : c.1 = b
      · have : b ≠ a := h ▸ hc
        simp [sparseRead, h, this]
      · simpa [sparseRead, h] using ih

theorem sparseErase_ne (a : Nat) (l : List (Nat × BitVec w)) : ∀ c ∈ sparseErase a l, c.1 ≠ a := by
  intro c hc
  simpa using (List.mem_filter.mp hc).2

/-- A read after a write. -/
theorem sparseRead_write (a : Nat) (v : BitVec w) (b : Nat) (l : List (Nat × BitVec w)) :
    sparseRead b (sparseWrite a v l) = if b = a then v else sparseRead b l := by
  unfold sparseWrite
  split
  · next hv =>
    by_cases h : b = a
    · simp [h, sparseRead_erase_same, hv]
    · simp [h, sparseRead_erase_other h]
  · rw [sparseRead_insert a v b (sparseErase_ne a l)]
    by_cases h : b = a
    · simp [h]
    · simp [h, sparseRead_erase_other h]

@[simp] theorem sparseRead_write_same (a : Nat) (v : BitVec w) (l : List (Nat × BitVec w)) :
    sparseRead a (sparseWrite a v l) = v := by
  simp [sparseRead_write]

theorem sparseRead_write_other {a b : Nat} (h : b ≠ a) (v : BitVec w) (l : List (Nat × BitVec w)) :
    sparseRead b (sparseWrite a v l) = sparseRead b l := by
  simp [sparseRead_write, h]

theorem sparseErase_wf {l : List (Nat × BitVec w)} (a : Nat) (h : SparseWf l) : SparseWf (sparseErase a l) :=
  ⟨h.1.filter _, fun c hc => h.2 c (List.mem_filter.mp hc).1⟩

theorem mem_sparseInsert {a : Nat} {v : BitVec w} {c : Nat × BitVec w} {l : List (Nat × BitVec w)} :
    c ∈ sparseInsert a v l ↔ c = (a, v) ∨ c ∈ l := by
  induction l with
  | nil => simp [sparseInsert]
  | cons d rest ih =>
    unfold sparseInsert
    split
    · simp
    · simp only [List.mem_cons, ih]; tauto

theorem sparseInsert_wf {l : List (Nat × BitVec w)} {a : Nat} {v : BitVec w} (h : SparseWf l) (hv : v ≠ 0#w)
    (ha : ∀ c ∈ l, c.1 ≠ a) : SparseWf (sparseInsert a v l) := by
  refine ⟨?_, ?_⟩
  · induction l with
    | nil => simp [sparseInsert]
    | cons c rest ih =>
      have hp := List.pairwise_cons.mp h.1
      have hc : c.1 ≠ a := ha c (by simp)
      unfold sparseInsert
      split
      · next hlt =>
        refine List.pairwise_cons.mpr ⟨?_, h.1⟩
        intro d hd
        rcases List.mem_cons.mp hd with rfl | hd
        · exact hlt
        · exact lt_trans hlt (hp.1 d hd)
      · refine List.pairwise_cons.mpr ⟨?_, ih ⟨hp.2, fun d hd => h.2 d (by simp [hd])⟩
          (fun d hd => ha d (by simp [hd]))⟩
        intro d hd
        rcases mem_sparseInsert.mp hd with rfl | hd
        · show c.1 < a
          omega
        · exact hp.1 d hd
  · intro c hc
    rcases mem_sparseInsert.mp hc with rfl | hc
    · exact hv
    · exact h.2 c hc

/-- Every write keeps the canonical form. -/
theorem sparseWrite_wf {l : List (Nat × BitVec w)} (a : Nat) (v : BitVec w) (h : SparseWf l) :
    SparseWf (sparseWrite a v l) := by
  unfold sparseWrite
  split
  · exact sparseErase_wf a h
  · next hv => exact sparseInsert_wf (sparseErase_wf a h) hv (sparseErase_ne a l)

/-- A write lists no address beyond the ones that were listed and its own. -/
theorem sparseWrite_below {l : List (Nat × BitVec w)} {n a : Nat} (v : BitVec w) (ha : a < n)
    (h : ∀ c ∈ l, c.1 < n) : ∀ c ∈ sparseWrite a v l, c.1 < n := by
  intro c hc
  unfold sparseWrite at hc
  split at hc
  · exact h c (List.mem_filter.mp hc).1
  · rcases mem_sparseInsert.mp hc with rfl | hc
    · exact ha
    · exact h c (List.mem_filter.mp hc).1

/-- Two canonical lists with the same contents are the same list: the form is canonical. -/
theorem sparse_ext {l m : List (Nat × BitVec w)} (hl : SparseWf l) (hm : SparseWf m)
    (h : ∀ a, sparseRead a l = sparseRead a m) : l = m := by
  have unlisted : ∀ {a : Nat} {k : List (Nat × BitVec w)}, (∀ d ∈ k, a < d.1) → sparseRead a k = 0#w := by
    intro a k
    induction k with
    | nil => intro _; rfl
    | cons d rest ih =>
      intro hk
      have : d.1 ≠ a := (hk d (by simp)).ne'
      simpa [sparseRead, this] using ih (fun e he => hk e (by simp [he]))
  induction l generalizing m with
  | nil =>
    cases m with
    | nil => rfl
    | cons d rest =>
      have := h d.1
      simp [sparseRead] at this
      exact absurd this.symm (hm.2 d (by simp))
  | cons c l ih =>
    have hpl := List.pairwise_cons.mp hl.1
    cases m with
    | nil =>
      have := h c.1
      simp [sparseRead] at this
      exact absurd this (hl.2 c (by simp))
    | cons d m =>
      have hpm := List.pairwise_cons.mp hm.1
      have hcd : c.1 = d.1 := by
        rcases lt_trichotomy c.1 d.1 with hlt | heq | hgt
        · have := h c.1
          rw [unlisted (a := c.1) (k := d :: m) (by
            intro e he
            rcases List.mem_cons.mp he with rfl | he
            · exact hlt
            · exact lt_trans hlt (hpm.1 e he))] at this
          simp [sparseRead] at this
          exact absurd this (hl.2 c (by simp))
        · exact heq
        · have := h d.1
          rw [unlisted (a := d.1) (k := c :: l) (by
            intro e he
            rcases List.mem_cons.mp he with rfl | he
            · exact hgt
            · exact lt_trans hgt (hpl.1 e he))] at this
          simp [sparseRead] at this
          exact absurd this.symm (hm.2 d (by simp))
      have hv : c.2 = d.2 := by simpa [sparseRead, hcd] using h c.1
      have htail : l = m := by
        refine ih ⟨hpl.2, fun e he => hl.2 e (by simp [he])⟩ ⟨hpm.2, fun e he => hm.2 e (by simp [he])⟩ ?_
        intro a
        by_cases ha : a = c.1
        · subst ha
          rw [unlisted (fun e he => hpl.1 e he), unlisted (fun e he => hcd ▸ hpm.1 e he)]
        · have := h a
          simpa [sparseRead, Ne.symm ha, hcd ▸ Ne.symm ha] using this
      rw [htail, Prod.ext hcd hv]

end Sys2Proof.Machine
end

