-- ==== Sys2Proof/Laws/State.lean ====
section
/-! SUPPORT. The fields of State under each update, and each read of the state under each update that leaves it
alone: all by unfolding once, so that no later proof unfolds a record update. -/

namespace Sys2Proof.Machine.State

variable (s : State)

/-! ### setX -/
@[simp] theorem setX_pc (r : Reg) (v : Word) : (s.setX r v).pc = s.pc := rfl
@[simp] theorem setX_pcInst (r : Reg) (v : Word) : (s.setX r v).pcInst = s.pcInst := rfl
@[simp] theorem setX_mode (r : Reg) (v : Word) : (s.setX r v).mode = s.mode := rfl
@[simp] theorem setX_prevMode (r : Reg) (v : Word) : (s.setX r v).prevMode = s.prevMode := rfl
@[simp] theorem setX_status (r : Reg) (v : Word) : (s.setX r v).status = s.status := rfl
@[simp] theorem setX_csr (r : Reg) (v : Word) : (s.setX r v).csr = s.csr := rfl
@[simp] theorem setX_mem (r : Reg) (v : Word) : (s.setX r v).mem = s.mem := rfl
@[simp] theorem setX_memSize (r : Reg) (v : Word) : (s.setX r v).memSize = s.memSize := rfl
@[simp] theorem setX_irqInputs (r : Reg) (v : Word) : (s.setX r v).irqInputs = s.irqInputs := rfl
@[simp] theorem csrRaw_setX (r : Reg) (v : Word) (c : CsrAddr) : (s.setX r v).csrRaw c = s.csrRaw c := rfl
@[simp] theorem read8_setX (r : Reg) (v : Word) (c : Word) : (s.setX r v).read8 c = s.read8 c := rfl
@[simp] theorem read16_setX (r : Reg) (v : Word) (c : Word) : (s.setX r v).read16 c = s.read16 c := rfl
@[simp] theorem read32_setX (r : Reg) (v : Word) (c : Word) : (s.setX r v).read32 c = s.read32 c := rfl

/-! ### setPc -/
@[simp] theorem setPc_regs (a : Word) : (s.setPc a).regs = s.regs := rfl
@[simp] theorem setPc_pcInst (a : Word) : (s.setPc a).pcInst = s.pcInst := rfl
@[simp] theorem setPc_mode (a : Word) : (s.setPc a).mode = s.mode := rfl
@[simp] theorem setPc_prevMode (a : Word) : (s.setPc a).prevMode = s.prevMode := rfl
@[simp] theorem setPc_status (a : Word) : (s.setPc a).status = s.status := rfl
@[simp] theorem setPc_csr (a : Word) : (s.setPc a).csr = s.csr := rfl
@[simp] theorem setPc_mem (a : Word) : (s.setPc a).mem = s.mem := rfl
@[simp] theorem setPc_memSize (a : Word) : (s.setPc a).memSize = s.memSize := rfl
@[simp] theorem setPc_irqInputs (a : Word) : (s.setPc a).irqInputs = s.irqInputs := rfl
@[simp] theorem setPc_pc (a : Word) : (s.setPc a).pc = a := rfl
@[simp] theorem x_setPc (a : Word) (q : Reg) : (s.setPc a).x q = s.x q := rfl
@[simp] theorem csrRaw_setPc (a : Word) (c : CsrAddr) : (s.setPc a).csrRaw c = s.csrRaw c := rfl
@[simp] theorem read8_setPc (a : Word) (c : Word) : (s.setPc a).read8 c = s.read8 c := rfl
@[simp] theorem read16_setPc (a : Word) (c : Word) : (s.setPc a).read16 c = s.read16 c := rfl
@[simp] theorem read32_setPc (a : Word) (c : Word) : (s.setPc a).read32 c = s.read32 c := rfl

/-! ### write8 -/
@[simp] theorem write8_regs (a : Word) (v : Byte) : (s.write8 a v).regs = s.regs := rfl
@[simp] theorem write8_pc (a : Word) (v : Byte) : (s.write8 a v).pc = s.pc := rfl
@[simp] theorem write8_pcInst (a : Word) (v : Byte) : (s.write8 a v).pcInst = s.pcInst := rfl
@[simp] theorem write8_mode (a : Word) (v : Byte) : (s.write8 a v).mode = s.mode := rfl
@[simp] theorem write8_prevMode (a : Word) (v : Byte) : (s.write8 a v).prevMode = s.prevMode := rfl
@[simp] theorem write8_status (a : Word) (v : Byte) : (s.write8 a v).status = s.status := rfl
@[simp] theorem write8_csr (a : Word) (v : Byte) : (s.write8 a v).csr = s.csr := rfl
@[simp] theorem write8_memSize (a : Word) (v : Byte) : (s.write8 a v).memSize = s.memSize := rfl
@[simp] theorem write8_irqInputs (a : Word) (v : Byte) : (s.write8 a v).irqInputs = s.irqInputs := rfl
@[simp] theorem x_write8 (a : Word) (v : Byte) (q : Reg) : (s.write8 a v).x q = s.x q := rfl
@[simp] theorem csrRaw_write8 (a : Word) (v : Byte) (c : CsrAddr) : (s.write8 a v).csrRaw c = s.csrRaw c := rfl

/-! ### write16 -/
@[simp] theorem write16_regs (a : Word) (v : BitVec 16) : (s.write16 a v).regs = s.regs := rfl
@[simp] theorem write16_pc (a : Word) (v : BitVec 16) : (s.write16 a v).pc = s.pc := rfl
@[simp] theorem write16_pcInst (a : Word) (v : BitVec 16) : (s.write16 a v).pcInst = s.pcInst := rfl
@[simp] theorem write16_mode (a : Word) (v : BitVec 16) : (s.write16 a v).mode = s.mode := rfl
@[simp] theorem write16_prevMode (a : Word) (v : BitVec 16) : (s.write16 a v).prevMode = s.prevMode := rfl
@[simp] theorem write16_status (a : Word) (v : BitVec 16) : (s.write16 a v).status = s.status := rfl
@[simp] theorem write16_csr (a : Word) (v : BitVec 16) : (s.write16 a v).csr = s.csr := rfl
@[simp] theorem write16_memSize (a : Word) (v : BitVec 16) : (s.write16 a v).memSize = s.memSize := rfl
@[simp] theorem write16_irqInputs (a : Word) (v : BitVec 16) : (s.write16 a v).irqInputs = s.irqInputs := rfl
@[simp] theorem x_write16 (a : Word) (v : BitVec 16) (q : Reg) : (s.write16 a v).x q = s.x q := rfl
@[simp] theorem csrRaw_write16 (a : Word) (v : BitVec 16) (c : CsrAddr) : (s.write16 a v).csrRaw c = s.csrRaw c := rfl

/-! ### write32 -/
@[simp] theorem write32_regs (a : Word) (v : Word) : (s.write32 a v).regs = s.regs := rfl
@[simp] theorem write32_pc (a : Word) (v : Word) : (s.write32 a v).pc = s.pc := rfl
@[simp] theorem write32_pcInst (a : Word) (v : Word) : (s.write32 a v).pcInst = s.pcInst := rfl
@[simp] theorem write32_mode (a : Word) (v : Word) : (s.write32 a v).mode = s.mode := rfl
@[simp] theorem write32_prevMode (a : Word) (v : Word) : (s.write32 a v).prevMode = s.prevMode := rfl
@[simp] theorem write32_status (a : Word) (v : Word) : (s.write32 a v).status = s.status := rfl
@[simp] theorem write32_csr (a : Word) (v : Word) : (s.write32 a v).csr = s.csr := rfl
@[simp] theorem write32_memSize (a : Word) (v : Word) : (s.write32 a v).memSize = s.memSize := rfl
@[simp] theorem write32_irqInputs (a : Word) (v : Word) : (s.write32 a v).irqInputs = s.irqInputs := rfl
@[simp] theorem x_write32 (a : Word) (v : Word) (q : Reg) : (s.write32 a v).x q = s.x q := rfl
@[simp] theorem csrRaw_write32 (a : Word) (v : Word) (c : CsrAddr) : (s.write32 a v).csrRaw c = s.csrRaw c := rfl

/-! ### setCsrRaw -/
@[simp] theorem setCsrRaw_regs (a : CsrAddr) (v : Word) : (s.setCsrRaw a v).regs = s.regs := rfl
@[simp] theorem setCsrRaw_pc (a : CsrAddr) (v : Word) : (s.setCsrRaw a v).pc = s.pc := rfl
@[simp] theorem setCsrRaw_pcInst (a : CsrAddr) (v : Word) : (s.setCsrRaw a v).pcInst = s.pcInst := rfl
@[simp] theorem setCsrRaw_mode (a : CsrAddr) (v : Word) : (s.setCsrRaw a v).mode = s.mode := rfl
@[simp] theorem setCsrRaw_prevMode (a : CsrAddr) (v : Word) : (s.setCsrRaw a v).prevMode = s.prevMode := rfl
@[simp] theorem setCsrRaw_status (a : CsrAddr) (v : Word) : (s.setCsrRaw a v).status = s.status := rfl
@[simp] theorem setCsrRaw_mem (a : CsrAddr) (v : Word) : (s.setCsrRaw a v).mem = s.mem := rfl
@[simp] theorem setCsrRaw_memSize (a : CsrAddr) (v : Word) : (s.setCsrRaw a v).memSize = s.memSize := rfl
@[simp] theorem setCsrRaw_irqInputs (a : CsrAddr) (v : Word) : (s.setCsrRaw a v).irqInputs = s.irqInputs := rfl
@[simp] theorem x_setCsrRaw (a : CsrAddr) (v : Word) (q : Reg) : (s.setCsrRaw a v).x q = s.x q := rfl
@[simp] theorem read8_setCsrRaw (a : CsrAddr) (v : Word) (c : Word) : (s.setCsrRaw a v).read8 c = s.read8 c := rfl
@[simp] theorem read16_setCsrRaw (a : CsrAddr) (v : Word) (c : Word) : (s.setCsrRaw a v).read16 c = s.read16 c := rfl
@[simp] theorem read32_setCsrRaw (a : CsrAddr) (v : Word) (c : Word) : (s.setCsrRaw a v).read32 c = s.read32 c := rfl

/-! ### Fetch and the interrupt latch -/
@[simp] theorem advance_pc : s.advance.pc = s.pc + 4#32 := rfl
@[simp] theorem advance_pcInst : s.advance.pcInst = s.pc := rfl
@[simp] theorem advance_regs : s.advance.regs = s.regs := rfl
@[simp] theorem advance_mode : s.advance.mode = s.mode := rfl
@[simp] theorem advance_prevMode : s.advance.prevMode = s.prevMode := rfl
@[simp] theorem advance_status : s.advance.status = s.status := rfl
@[simp] theorem advance_csr : s.advance.csr = s.csr := rfl
@[simp] theorem advance_mem : s.advance.mem = s.mem := rfl
@[simp] theorem advance_memSize : s.advance.memSize = s.memSize := rfl
@[simp] theorem advance_irqInputs : s.advance.irqInputs = s.irqInputs := rfl
@[simp] theorem x_advance (q : Reg) : s.advance.x q = s.x q := rfl
@[simp] theorem csrRaw_advance (c : CsrAddr) : s.advance.csrRaw c = s.csrRaw c := rfl
@[simp] theorem read8_advance (c : Word) : s.advance.read8 c = s.read8 c := rfl
@[simp] theorem pollIrq_regs : s.pollIrq.regs = s.regs := rfl
@[simp] theorem pollIrq_pc : s.pollIrq.pc = s.pc := rfl
@[simp] theorem pollIrq_pcInst : s.pollIrq.pcInst = s.pcInst := rfl
@[simp] theorem pollIrq_mode : s.pollIrq.mode = s.mode := rfl
@[simp] theorem pollIrq_prevMode : s.pollIrq.prevMode = s.prevMode := rfl
@[simp] theorem pollIrq_status : s.pollIrq.status = s.status := rfl
@[simp] theorem pollIrq_mem : s.pollIrq.mem = s.mem := rfl
@[simp] theorem pollIrq_memSize : s.pollIrq.memSize = s.memSize := rfl
@[simp] theorem pollIrq_irqInputs : s.pollIrq.irqInputs = s.irqInputs.tail := rfl
@[simp] theorem x_pollIrq (q : Reg) : s.pollIrq.x q = s.x q := rfl
@[simp] theorem read8_pollIrq (c : Word) : s.pollIrq.read8 c = s.read8 c := rfl
@[simp] theorem read32_pollIrq (c : Word) : s.pollIrq.read32 c = s.read32 c := rfl
@[simp] theorem fetchWord_pollIrq : s.pollIrq.fetchWord = s.fetchWord := rfl

/-! ### Registers -/

/-- x0 reads 0 (10_state.md R31). -/
@[simp] theorem x_zero : s.x 0 = 0#32 := rfl

/-- Reading a register after writing one; a write to x0 is discarded (10_state.md R31). -/
theorem x_setX (rd : Reg) (v : Word) (r : Reg) :
    (s.setX rd v).x r = if r = rd ∧ r ≠ 0 then v else s.x r := by
  unfold x setX
  by_cases h0 : r = 0
  · simp [h0]
  · by_cases hd : rd = 0
    · subst hd; simp [h0]
    · by_cases hr : r = rd
      · subst hr; simp [h0]
      · have : (rd : Nat) ≠ (r : Nat) := fun h => hr (Fin.ext h.symm)
        simp [h0, hd, hr, this]

end Sys2Proof.Machine.State
end

