-- ==== Sys2Proof/Laws/Csr.lean ====
section
/-! SUPPORT. The CSR bank: a register read after a write, what `CSRWrite` can do, and the canonical form. -/

namespace Sys2Proof.Machine

namespace State

variable (s : State)

/-- Reading `csr_raw` after writing it. -/
theorem csrRaw_setCsrRaw (a : CsrAddr) (v : Word) (b : CsrAddr) :
    (s.setCsrRaw a v).csrRaw b = if b = a then v else s.csrRaw b := by
  unfold csrRaw setCsrRaw
  rw [sparseRead_write]
  by_cases h : b = a
  · simp [h]
  · have : b.toNat ≠ a.toNat := fun e => h (BitVec.eq_of_toNat_eq e)
    simp [h, this]

@[simp] theorem csrRaw_setCsrRaw_same (a : CsrAddr) (v : Word) : (s.setCsrRaw a v).csrRaw a = v := by
  simp [csrRaw_setCsrRaw]

/-- The latch's write, as a write of `mip`. -/
theorem pollIrq_csr : s.pollIrq.csr = if s.irq = 0#32 then s.csr
    else (s.setCsrRaw csrMip (setBit (s.csrRaw csrMip) 9 true)).csr := rfl

/-- The bank after the latch (60_exceptions.md R406). -/
theorem csrRaw_pollIrq (a : CsrAddr) :
    s.pollIrq.csrRaw a =
      if s.irq ≠ 0#32 ∧ a = csrMip then setBit (s.csrRaw csrMip) 9 true else s.csrRaw a := by
  have : s.pollIrq.csrRaw a = sparseRead a.toNat s.pollIrq.csr := rfl
  rw [this, pollIrq_csr]
  by_cases h : s.irq = 0#32
  · simp [h, csrRaw]
  · have := s.csrRaw_setCsrRaw csrMip (setBit (s.csrRaw csrMip) 9 true) a
    unfold csrRaw at this ⊢
    simp only [h, if_false, ne_eq, not_false_eq_true, true_and]
    exact this

/-! ### What `CSRWrite` leaves alone -/

@[simp] theorem csrWrite_regs (a : CsrAddr) (v : Word) : (s.csrWrite a v).regs = s.regs := by
  unfold csrWrite; split_ifs <;> rfl
@[simp] theorem csrWrite_pc (a : CsrAddr) (v : Word) : (s.csrWrite a v).pc = s.pc := by
  unfold csrWrite; split_ifs <;> rfl
@[simp] theorem csrWrite_pcInst (a : CsrAddr) (v : Word) : (s.csrWrite a v).pcInst = s.pcInst := by
  unfold csrWrite; split_ifs <;> rfl
@[simp] theorem csrWrite_mode (a : CsrAddr) (v : Word) : (s.csrWrite a v).mode = s.mode := by
  unfold csrWrite; split_ifs <;> rfl
@[simp] theorem csrWrite_prevMode (a : CsrAddr) (v : Word) : (s.csrWrite a v).prevMode = s.prevMode := by
  unfold csrWrite; split_ifs <;> rfl
@[simp] theorem csrWrite_status (a : CsrAddr) (v : Word) : (s.csrWrite a v).status = s.status := by
  unfold csrWrite; split_ifs <;> rfl
@[simp] theorem csrWrite_mem (a : CsrAddr) (v : Word) : (s.csrWrite a v).mem = s.mem := by
  unfold csrWrite; split_ifs <;> rfl
@[simp] theorem csrWrite_memSize (a : CsrAddr) (v : Word) : (s.csrWrite a v).memSize = s.memSize := by
  unfold csrWrite; split_ifs <;> rfl
@[simp] theorem csrWrite_irqInputs (a : CsrAddr) (v : Word) : (s.csrWrite a v).irqInputs = s.irqInputs := by
  unfold csrWrite; split_ifs <;> rfl
@[simp] theorem x_csrWrite (a : CsrAddr) (v : Word) (q : Reg) : (s.csrWrite a v).x q = s.x q := by
  unfold csrWrite; split_ifs <;> rfl
@[simp] theorem read8_csrWrite (a : CsrAddr) (v : Word) (c : Word) : (s.csrWrite a v).read8 c = s.read8 c := by
  unfold csrWrite; split_ifs <;> rfl

/-- Everything `CSRWrite` can do: nothing, or one write of storage that is neither fixed nor a view's
(44_csr.md R331). -/
theorem csrWrite_cases (a : CsrAddr) (v : Word) :
    s.csrWrite a v = s ∨
      ∃ b w, b ∉ idRegisters ∧ b ≠ csrMisa ∧ b ∉ viewRegisters ∧ s.csrWrite a v = s.setCsrRaw b w := by
  unfold csrWrite
  split_ifs with h1 h2 h3 h4 h5 h6
  · exact .inl rfl
  · exact .inl rfl
  · exact .inr ⟨csrMstatus, _, by decide, by decide, by decide, rfl⟩
  · exact .inr ⟨csrMie, _, by decide, by decide, by decide, rfl⟩
  · exact .inr ⟨csrMip, _, by decide, by decide, by decide, rfl⟩
  · exact .inr ⟨csrSatp, _, by decide, by decide, by decide, rfl⟩
  · exact .inr ⟨a, v, h1, h2, by simp [h3, h4, h5], rfl⟩

end State

theorem getLsbD_mergeMasked (mask old new : Word) (k : Nat) :
    (mergeMasked mask old new).getLsbD k = if mask.getLsbD k then new.getLsbD k else old.getLsbD k := by
  unfold mergeMasked
  rw [BitVec.getLsbD_or, BitVec.getLsbD_and, BitVec.getLsbD_and, BitVec.getLsbD_not]
  by_cases hk : k < 32
  · cases h : mask.getLsbD k <;> simp [hk]
  · simp [hk, BitVec.getLsbD_of_ge _ k (Nat.le_of_not_lt hk)]

theorem setCsrRaw_wf {s : State} (a : CsrAddr) (v : Word) (h : CsrBank.wf s.csr) :
    CsrBank.wf (s.setCsrRaw a v).csr := sparseWrite_wf _ _ h

theorem setCsrRaw_below {s : State} (a : CsrAddr) (v : Word) (h : ∀ c ∈ s.csr, c.1 < 4096) :
    ∀ c ∈ (s.setCsrRaw a v).csr, c.1 < 4096 := sparseWrite_below v a.isLt h

/-- The bits `sstatus` shows (10_state.md R62). -/
theorem getLsbD_sstatusMask (k : Nat) :
    sstatusMask.getLsbD k = true ↔ k ∈ [1, 5, 8, 13, 14, 15, 16, 18, 19] := by
  by_cases h : k < 32
  · interval_cases k <;> decide
  · rw [BitVec.getLsbD_of_ge _ _ (by omega)]
    simp
    omega

theorem getLsbD_sipWriteMask (k : Nat) : sipWriteMask.getLsbD k = true ↔ k = 1 := by
  by_cases h : k < 32
  · interval_cases k <;> decide
  · rw [BitVec.getLsbD_of_ge _ _ (by omega)]
    simp
    omega

end Sys2Proof.Machine
end

