-- ==== Sys2Proof/Laws/Decode.lean ====
section
/-! SUPPORT. The fields of an encoded word are the fields it was made of, and a word is made of its fields, one
lemma per format and field (spec/30_encoding.md R141, R142). -/

namespace Sys2Proof

theorem regBits_toFin (b : BitVec 5) : regBits b.toFin = b := rfl

/-! ### I format -/

theorem getLsbD_encodeI (imm : BitVec 12) (r1 : BitVec 5) (f3 : BitVec 3) (rd : Reg) (op : BitVec 7) (k : Nat) :
    (encodeI imm r1 f3 rd op).getLsbD k =
      if k < 7 then op.getLsbD k
      else if k < 12 then (regBits rd).getLsbD (k - 7)
      else if k < 15 then f3.getLsbD (k - 12)
      else if k < 20 then r1.getLsbD (k - 15)
      else imm.getLsbD (k - 20) := by
  show BitVec.getLsbD (w := 12+5+3+5+7) (imm ++ r1 ++ f3 ++ regBits rd ++ op) k = _
  simp only [BitVec.getLsbD_append]
  split_ifs <;> first | rfl | omega

/-! ### R format -/

theorem getLsbD_encodeR (f7 : BitVec 7) (rs2 rs1 : Reg) (f3 : BitVec 3) (rd : Reg) (op : BitVec 7) (k : Nat) :
    (encodeR f7 rs2 rs1 f3 rd op).getLsbD k =
      if k < 7 then op.getLsbD k
      else if k < 12 then (regBits rd).getLsbD (k - 7)
      else if k < 15 then f3.getLsbD (k - 12)
      else if k < 20 then (regBits rs1).getLsbD (k - 15)
      else if k < 25 then (regBits rs2).getLsbD (k - 20)
      else f7.getLsbD (k - 25) := by
  show BitVec.getLsbD (w := 7+5+5+3+5+7) (f7 ++ regBits rs2 ++ regBits rs1 ++ f3 ++ regBits rd ++ op) k = _
  simp only [BitVec.getLsbD_append]
  split_ifs <;> first | rfl | omega

/-! ### S format -/

theorem getLsbD_encodeS (imm : BitVec 12) (rs2 rs1 : Reg) (f3 : BitVec 3) (op : BitVec 7) (k : Nat) :
    (encodeS imm rs2 rs1 f3 op).getLsbD k =
      if k < 7 then op.getLsbD k
      else if k < 12 then (imm.extractLsb' 0 5).getLsbD (k - 7)
      else if k < 15 then f3.getLsbD (k - 12)
      else if k < 20 then (regBits rs1).getLsbD (k - 15)
      else if k < 25 then (regBits rs2).getLsbD (k - 20)
      else (imm.extractLsb' 5 7).getLsbD (k - 25) := by
  show BitVec.getLsbD (w := 7+5+5+3+5+7) (imm.extractLsb' 5 7 ++ regBits rs2 ++ regBits rs1 ++ f3 ++ imm.extractLsb' 0 5 ++ op) k = _
  simp only [BitVec.getLsbD_append]
  split_ifs <;> first | rfl | omega

/-! ### B format -/

theorem getLsbD_encodeB (imm : BitVec 13) (rs2 rs1 : Reg) (f3 : BitVec 3) (op : BitVec 7) (k : Nat) :
    (encodeB imm rs2 rs1 f3 op).getLsbD k =
      if k < 7 then op.getLsbD k
      else if k < 8 then (imm.extractLsb' 11 1).getLsbD (k - 7)
      else if k < 12 then (imm.extractLsb' 1 4).getLsbD (k - 8)
      else if k < 15 then f3.getLsbD (k - 12)
      else if k < 20 then (regBits rs1).getLsbD (k - 15)
      else if k < 25 then (regBits rs2).getLsbD (k - 20)
      else if k < 31 then (imm.extractLsb' 5 6).getLsbD (k - 25)
      else (imm.extractLsb' 12 1).getLsbD (k - 31) := by
  show BitVec.getLsbD (w := 1+6+5+5+3+4+1+7) (imm.extractLsb' 12 1 ++ imm.extractLsb' 5 6 ++ regBits rs2 ++ regBits rs1 ++ f3
    ++ imm.extractLsb' 1 4 ++ imm.extractLsb' 11 1 ++ op) k = _
  simp only [BitVec.getLsbD_append]
  split_ifs <;> first | rfl | omega

/-! ### U format -/

theorem getLsbD_encodeU (imm20 : BitVec 20) (rd : Reg) (op : BitVec 7) (k : Nat) :
    (encodeU imm20 rd op).getLsbD k =
      if k < 7 then op.getLsbD k
      else if k < 12 then (regBits rd).getLsbD (k - 7)
      else imm20.getLsbD (k - 12) := by
  show BitVec.getLsbD (w := 20+5+7) (imm20 ++ regBits rd ++ op) k = _
  simp only [BitVec.getLsbD_append]
  split_ifs <;> first | rfl | omega

/-! ### J format -/

theorem getLsbD_encodeJ (imm : BitVec 21) (rd : Reg) (op : BitVec 7) (k : Nat) :
    (encodeJ imm rd op).getLsbD k =
      if k < 7 then op.getLsbD k
      else if k < 12 then (regBits rd).getLsbD (k - 7)
      else if k < 20 then (imm.extractLsb' 12 8).getLsbD (k - 12)
      else if k < 21 then (imm.extractLsb' 11 1).getLsbD (k - 20)
      else if k < 31 then (imm.extractLsb' 1 10).getLsbD (k - 21)
      else (imm.extractLsb' 20 1).getLsbD (k - 31) := by
  show BitVec.getLsbD (w := 1+10+1+8+5+7) (imm.extractLsb' 20 1 ++ imm.extractLsb' 1 10 ++ imm.extractLsb' 11 1 ++ imm.extractLsb' 12 8
    ++ regBits rd ++ op) k = _
  simp only [BitVec.getLsbD_append]
  split_ifs <;> first | rfl | omega

/-! ### Fields of I words -/

theorem opcodeField_encodeI (imm : BitVec 12) (r1 : BitVec 5) (f3 : BitVec 3) (rd : Reg) (op : BitVec 7) : opcodeField (encodeI imm r1 f3 rd op) = op := by
  apply BitVec.eq_of_getLsbD_eq
  intro i hi
  unfold opcodeField
  simp only [BitVec.getLsbD_extractLsb', getLsbD_encodeI]
  interval_cases i <;> simp

theorem rdField_encodeI (imm : BitVec 12) (r1 : BitVec 5) (f3 : BitVec 3) (rd : Reg) (op : BitVec 7) : rdField (encodeI imm r1 f3 rd op) = rd := by
  have h : (encodeI imm r1 f3 rd op).extractLsb' 7 5 = regBits rd := by
    apply BitVec.eq_of_getLsbD_eq
    intro i hi
    rw [BitVec.getLsbD_extractLsb', getLsbD_encodeI]
    interval_cases i <;> simp
  unfold rdField
  rw [h]
  rfl

theorem funct3Field_encodeI (imm : BitVec 12) (r1 : BitVec 5) (f3 : BitVec 3) (rd : Reg) (op : BitVec 7) : funct3Field (encodeI imm r1 f3 rd op) = f3 := by
  apply BitVec.eq_of_getLsbD_eq
  intro i hi
  unfold funct3Field
  simp only [BitVec.getLsbD_extractLsb', getLsbD_encodeI]
  interval_cases i <;> simp

theorem zimmField_encodeI (imm : BitVec 12) (r1 : BitVec 5) (f3 : BitVec 3) (rd : Reg) (op : BitVec 7) : zimmField (encodeI imm r1 f3 rd op) = r1 := by
  apply BitVec.eq_of_getLsbD_eq
  intro i hi
  unfold zimmField
  simp only [BitVec.getLsbD_extractLsb', getLsbD_encodeI]
  interval_cases i <;> simp

theorem immIField_encodeI (imm : BitVec 12) (r1 : BitVec 5) (f3 : BitVec 3) (rd : Reg) (op : BitVec 7) : immIField (encodeI imm r1 f3 rd op) = imm := by
  apply BitVec.eq_of_getLsbD_eq
  intro i hi
  unfold immIField
  simp only [BitVec.getLsbD_extractLsb', getLsbD_encodeI]
  interval_cases i <;> simp

/-! ### Fields of R words -/

theorem opcodeField_encodeR (f7 : BitVec 7) (rs2 rs1 : Reg) (f3 : BitVec 3) (rd : Reg) (op : BitVec 7) : opcodeField (encodeR f7 rs2 rs1 f3 rd op) = op := by
  apply BitVec.eq_of_getLsbD_eq
  intro i hi
  unfold opcodeField
  simp only [BitVec.getLsbD_extractLsb', getLsbD_encodeR]
  interval_cases i <;> simp

theorem rdField_encodeR (f7 : BitVec 7) (rs2 rs1 : Reg) (f3 : BitVec 3) (rd : Reg) (op : BitVec 7) : rdField (encodeR f7 rs2 rs1 f3 rd op) = rd := by
  have h : (encodeR f7 rs2 rs1 f3 rd op).extractLsb' 7 5 = regBits rd := by
    apply BitVec.eq_of_getLsbD_eq
    intro i hi
    rw [BitVec.getLsbD_extractLsb', getLsbD_encodeR]
    interval_cases i <;> simp
  unfold rdField
  rw [h]
  rfl

theorem funct3Field_encodeR (f7 : BitVec 7) (rs2 rs1 : Reg) (f3 : BitVec 3) (rd : Reg) (op : BitVec 7) : funct3Field (encodeR f7 rs2 rs1 f3 rd op) = f3 := by
  apply BitVec.eq_of_getLsbD_eq
  intro i hi
  unfold funct3Field
  simp only [BitVec.getLsbD_extractLsb', getLsbD_encodeR]
  interval_cases i <;> simp

theorem rs1Field_encodeR (f7 : BitVec 7) (rs2 rs1 : Reg) (f3 : BitVec 3) (rd : Reg) (op : BitVec 7) : rs1Field (encodeR f7 rs2 rs1 f3 rd op) = rs1 := by
  have h : (encodeR f7 rs2 rs1 f3 rd op).extractLsb' 15 5 = regBits rs1 := by
    apply BitVec.eq_of_getLsbD_eq
    intro i hi
    rw [BitVec.getLsbD_extractLsb', getLsbD_encodeR]
    interval_cases i <;> simp
  unfold rs1Field
  rw [h]
  rfl

theorem rs2Field_encodeR (f7 : BitVec 7) (rs2 rs1 : Reg) (f3 : BitVec 3) (rd : Reg) (op : BitVec 7) : rs2Field (encodeR f7 rs2 rs1 f3 rd op) = rs2 := by
  have h : (encodeR f7 rs2 rs1 f3 rd op).extractLsb' 20 5 = regBits rs2 := by
    apply BitVec.eq_of_getLsbD_eq
    intro i hi
    rw [BitVec.getLsbD_extractLsb', getLsbD_encodeR]
    interval_cases i <;> simp
  unfold rs2Field
  rw [h]
  rfl

theorem funct7Field_encodeR (f7 : BitVec 7) (rs2 rs1 : Reg) (f3 : BitVec 3) (rd : Reg) (op : BitVec 7) : funct7Field (encodeR f7 rs2 rs1 f3 rd op) = f7 := by
  apply BitVec.eq_of_getLsbD_eq
  intro i hi
  unfold funct7Field
  simp only [BitVec.getLsbD_extractLsb', getLsbD_encodeR]
  interval_cases i <;> simp

/-! ### Fields of S words -/

theorem opcodeField_encodeS (imm : BitVec 12) (rs2 rs1 : Reg) (f3 : BitVec 3) (op : BitVec 7) : opcodeField (encodeS imm rs2 rs1 f3 op) = op := by
  apply BitVec.eq_of_getLsbD_eq
  intro i hi
  unfold opcodeField
  simp only [BitVec.getLsbD_extractLsb', getLsbD_encodeS]
  interval_cases i <;> simp

theorem funct3Field_encodeS (imm : BitVec 12) (rs2 rs1 : Reg) (f3 : BitVec 3) (op : BitVec 7) : funct3Field (encodeS imm rs2 rs1 f3 op) = f3 := by
  apply BitVec.eq_of_getLsbD_eq
  intro i hi
  unfold funct3Field
  simp only [BitVec.getLsbD_extractLsb', getLsbD_encodeS]
  interval_cases i <;> simp

theorem rs1Field_encodeS (imm : BitVec 12) (rs2 rs1 : Reg) (f3 : BitVec 3) (op : BitVec 7) : rs1Field (encodeS imm rs2 rs1 f3 op) = rs1 := by
  have h : (encodeS imm rs2 rs1 f3 op).extractLsb' 15 5 = regBits rs1 := by
    apply BitVec.eq_of_getLsbD_eq
    intro i hi
    rw [BitVec.getLsbD_extractLsb', getLsbD_encodeS]
    interval_cases i <;> simp
  unfold rs1Field
  rw [h]
  rfl

theorem rs2Field_encodeS (imm : BitVec 12) (rs2 rs1 : Reg) (f3 : BitVec 3) (op : BitVec 7) : rs2Field (encodeS imm rs2 rs1 f3 op) = rs2 := by
  have h : (encodeS imm rs2 rs1 f3 op).extractLsb' 20 5 = regBits rs2 := by
    apply BitVec.eq_of_getLsbD_eq
    intro i hi
    rw [BitVec.getLsbD_extractLsb', getLsbD_encodeS]
    interval_cases i <;> simp
  unfold rs2Field
  rw [h]
  rfl

theorem immSField_encodeS (imm : BitVec 12) (rs2 rs1 : Reg) (f3 : BitVec 3) (op : BitVec 7) : immSField (encodeS imm rs2 rs1 f3 op) = imm := by
  apply BitVec.eq_of_getLsbD_eq
  intro i hi
  unfold immSField
  simp only [BitVec.getLsbD_append, BitVec.getLsbD_extractLsb', getLsbD_encodeS]
  interval_cases i <;> simp

/-! ### Fields of B words -/

theorem opcodeField_encodeB (imm : BitVec 13) (rs2 rs1 : Reg) (f3 : BitVec 3) (op : BitVec 7) : opcodeField (encodeB imm rs2 rs1 f3 op) = op := by
  apply BitVec.eq_of_getLsbD_eq
  intro i hi
  unfold opcodeField
  simp only [BitVec.getLsbD_extractLsb', getLsbD_encodeB]
  interval_cases i <;> simp

theorem funct3Field_encodeB (imm : BitVec 13) (rs2 rs1 : Reg) (f3 : BitVec 3) (op : BitVec 7) : funct3Field (encodeB imm rs2 rs1 f3 op) = f3 := by
  apply BitVec.eq_of_getLsbD_eq
  intro i hi
  unfold funct3Field
  simp only [BitVec.getLsbD_extractLsb', getLsbD_encodeB]
  interval_cases i <;> simp

theorem rs1Field_encodeB (imm : BitVec 13) (rs2 rs1 : Reg) (f3 : BitVec 3) (op : BitVec 7) : rs1Field (encodeB imm rs2 rs1 f3 op) = rs1 := by
  have h : (encodeB imm rs2 rs1 f3 op).extractLsb' 15 5 = regBits rs1 := by
    apply BitVec.eq_of_getLsbD_eq
    intro i hi
    rw [BitVec.getLsbD_extractLsb', getLsbD_encodeB]
    interval_cases i <;> simp
  unfold rs1Field
  rw [h]
  rfl

theorem rs2Field_encodeB (imm : BitVec 13) (rs2 rs1 : Reg) (f3 : BitVec 3) (op : BitVec 7) : rs2Field (encodeB imm rs2 rs1 f3 op) = rs2 := by
  have h : (encodeB imm rs2 rs1 f3 op).extractLsb' 20 5 = regBits rs2 := by
    apply BitVec.eq_of_getLsbD_eq
    intro i hi
    rw [BitVec.getLsbD_extractLsb', getLsbD_encodeB]
    interval_cases i <;> simp
  unfold rs2Field
  rw [h]
  rfl

theorem immBField_encodeB (imm : BitVec 13) (rs2 rs1 : Reg) (f3 : BitVec 3) (op : BitVec 7) (h : evenOffset imm = true) :
    immBField (encodeB imm rs2 rs1 f3 op) = imm := by
  have h0 : imm[0] = false := by simpa [evenOffset] using h
  apply BitVec.eq_of_getLsbD_eq
  intro i hi
  unfold immBField
  simp only [BitVec.getLsbD_append, BitVec.getLsbD_extractLsb', getLsbD_encodeB]
  interval_cases i <;> simp [h0]

/-! ### Fields of U words -/

theorem opcodeField_encodeU (imm20 : BitVec 20) (rd : Reg) (op : BitVec 7) : opcodeField (encodeU imm20 rd op) = op := by
  apply BitVec.eq_of_getLsbD_eq
  intro i hi
  unfold opcodeField
  simp only [BitVec.getLsbD_extractLsb', getLsbD_encodeU]
  interval_cases i <;> simp

theorem rdField_encodeU (imm20 : BitVec 20) (rd : Reg) (op : BitVec 7) : rdField (encodeU imm20 rd op) = rd := by
  have h : (encodeU imm20 rd op).extractLsb' 7 5 = regBits rd := by
    apply BitVec.eq_of_getLsbD_eq
    intro i hi
    rw [BitVec.getLsbD_extractLsb', getLsbD_encodeU]
    interval_cases i <;> simp
  unfold rdField
  rw [h]
  rfl

theorem immUField_encodeU (imm20 : BitVec 20) (rd : Reg) (op : BitVec 7) : immUField (encodeU imm20 rd op) = imm20 := by
  apply BitVec.eq_of_getLsbD_eq
  intro i hi
  unfold immUField
  simp only [BitVec.getLsbD_extractLsb', getLsbD_encodeU]
  interval_cases i <;> simp

/-! ### Fields of J words -/

theorem opcodeField_encodeJ (imm : BitVec 21) (rd : Reg) (op : BitVec 7) : opcodeField (encodeJ imm rd op) = op := by
  apply BitVec.eq_of_getLsbD_eq
  intro i hi
  unfold opcodeField
  simp only [BitVec.getLsbD_extractLsb', getLsbD_encodeJ]
  interval_cases i <;> simp

theorem rdField_encodeJ (imm : BitVec 21) (rd : Reg) (op : BitVec 7) : rdField (encodeJ imm rd op) = rd := by
  have h : (encodeJ imm rd op).extractLsb' 7 5 = regBits rd := by
    apply BitVec.eq_of_getLsbD_eq
    intro i hi
    rw [BitVec.getLsbD_extractLsb', getLsbD_encodeJ]
    interval_cases i <;> simp
  unfold rdField
  rw [h]
  rfl

theorem immJField_encodeJ (imm : BitVec 21) (rd : Reg) (op : BitVec 7) (h : evenOffset imm = true) :
    immJField (encodeJ imm rd op) = imm := by
  have h0 : imm[0] = false := by simpa [evenOffset] using h
  apply BitVec.eq_of_getLsbD_eq
  intro i hi
  unfold immJField
  simp only [BitVec.getLsbD_append, BitVec.getLsbD_extractLsb', getLsbD_encodeJ]
  interval_cases i <;> simp [h0]

theorem rs1Field_encodeI (imm : BitVec 12) (rs1 : Reg) (f3 : BitVec 3) (rd : Reg) (op : BitVec 7) :
    rs1Field (encodeI imm (regBits rs1) f3 rd op) = rs1 := by
  have h : rs1Field (encodeI imm (regBits rs1) f3 rd op) = (zimmField (encodeI imm (regBits rs1) f3 rd op)).toFin :=
    rfl
  rw [h, zimmField_encodeI]
  rfl

/-- The shift forms: funct7 stands above the shift amount. -/
theorem funct7Field_encodeI (f7 : BitVec 7) (shamt r1 : BitVec 5) (f3 : BitVec 3) (rd : Reg) (op : BitVec 7) :
    funct7Field (encodeI (f7 ++ shamt) r1 f3 rd op) = f7 := by
  apply BitVec.eq_of_getLsbD_eq
  intro i hi
  unfold funct7Field
  simp only [BitVec.getLsbD_extractLsb', getLsbD_encodeI, BitVec.getLsbD_append]
  interval_cases i <;> simp

theorem shamtField_encodeI (f7 : BitVec 7) (shamt r1 : BitVec 5) (f3 : BitVec 3) (rd : Reg) (op : BitVec 7) :
    shamtField (encodeI (f7 ++ shamt) r1 f3 rd op) = shamt := by
  apply BitVec.eq_of_getLsbD_eq
  intro i hi
  unfold shamtField
  simp only [BitVec.getLsbD_extractLsb', getLsbD_encodeI, BitVec.getLsbD_append]
  interval_cases i <;> simp

/-! ### A word is made of its fields -/

theorem encodeI_fields (w : Word) :
    encodeI (immIField w) (zimmField w) (funct3Field w) (rdField w) (opcodeField w) = w := by
  apply BitVec.eq_of_getLsbD_eq
  intro i hi
  rw [getLsbD_encodeI]
  simp only [immIField, zimmField, funct3Field, rdField, opcodeField, regBits_toFin, BitVec.getLsbD_extractLsb']
  interval_cases i <;> simp

theorem encodeR_fields (w : Word) :
    encodeR (funct7Field w) (rs2Field w) (rs1Field w) (funct3Field w) (rdField w) (opcodeField w) = w := by
  apply BitVec.eq_of_getLsbD_eq
  intro i hi
  rw [getLsbD_encodeR]
  simp only [funct7Field, rs2Field, rs1Field, funct3Field, rdField, opcodeField, regBits_toFin, BitVec.getLsbD_extractLsb']
  interval_cases i <;> simp

theorem encodeS_fields (w : Word) :
    encodeS (immSField w) (rs2Field w) (rs1Field w) (funct3Field w) (opcodeField w) = w := by
  apply BitVec.eq_of_getLsbD_eq
  intro i hi
  rw [getLsbD_encodeS]
  simp only [immSField, rs2Field, rs1Field, funct3Field, opcodeField, regBits_toFin, BitVec.getLsbD_append, BitVec.getLsbD_extractLsb']
  interval_cases i <;> simp

theorem encodeB_fields (w : Word) :
    encodeB (immBField w) (rs2Field w) (rs1Field w) (funct3Field w) (opcodeField w) = w := by
  apply BitVec.eq_of_getLsbD_eq
  intro i hi
  rw [getLsbD_encodeB]
  simp only [immBField, rs2Field, rs1Field, funct3Field, opcodeField, regBits_toFin, BitVec.getLsbD_append, BitVec.getLsbD_extractLsb']
  interval_cases i <;> simp

theorem encodeU_fields (w : Word) :
    encodeU (immUField w) (rdField w) (opcodeField w) = w := by
  apply BitVec.eq_of_getLsbD_eq
  intro i hi
  rw [getLsbD_encodeU]
  simp only [immUField, rdField, opcodeField, regBits_toFin, BitVec.getLsbD_extractLsb']
  interval_cases i <;> simp

theorem encodeJ_fields (w : Word) :
    encodeJ (immJField w) (rdField w) (opcodeField w) = w := by
  apply BitVec.eq_of_getLsbD_eq
  intro i hi
  rw [getLsbD_encodeJ]
  simp only [immJField, rdField, opcodeField, regBits_toFin, BitVec.getLsbD_append, BitVec.getLsbD_extractLsb']
  interval_cases i <;> simp

theorem evenOffset_immBField (w : Word) : evenOffset (immBField w) = true := by
  simp only [evenOffset, immBField, BitVec.getLsbD_append]
  simp

theorem evenOffset_immJField (w : Word) : evenOffset (immJField w) = true := by
  simp only [evenOffset, immJField, BitVec.getLsbD_append]
  simp

/-! ### The masks of the opcode table, as fields -/

theorem and_mask_opcode (w : Word) : w &&& 0x0000007F#32 = (opcodeField w).setWidth 32 := by
  apply BitVec.eq_of_getLsbD_eq
  intro i hi
  unfold opcodeField
  interval_cases i <;> simp

theorem and_mask_funct3 (w : Word) :
    w &&& 0x0000707F#32 = ((funct3Field w).setWidth 32 <<< 12) ||| (opcodeField w).setWidth 32 := by
  apply BitVec.eq_of_getLsbD_eq
  intro i hi
  unfold funct3Field opcodeField
  interval_cases i <;> simp

theorem and_mask_funct7 (w : Word) :
    w &&& 0xFE00707F#32 = ((funct7Field w).setWidth 32 <<< 25) ||| ((funct3Field w).setWidth 32 <<< 12)
      ||| (opcodeField w).setWidth 32 := by
  apply BitVec.eq_of_getLsbD_eq
  intro i hi
  unfold funct7Field funct3Field opcodeField
  interval_cases i <;> simp

theorem and_mask_sfence (w : Word) :
    w &&& 0xFE007FFF#32 = ((funct7Field w).setWidth 32 <<< 25) ||| ((funct3Field w).setWidth 32 <<< 12)
      ||| ((regBits (rdField w)).setWidth 32 <<< 7) ||| (opcodeField w).setWidth 32 := by
  apply BitVec.eq_of_getLsbD_eq
  intro i hi
  simp only [rdField, regBits_toFin]
  unfold funct7Field funct3Field opcodeField
  interval_cases i <;> simp

/-! ### The fields a row's pattern fixes -/

theorem opcodeField_of_mask {w p : Word} (h : w &&& 0x0000007F#32 = p) : opcodeField w = p.extractLsb' 0 7 := by
  rw [← h]
  apply BitVec.eq_of_getLsbD_eq
  intro i hi
  unfold opcodeField
  interval_cases i <;> simp

theorem funct3Field_of_mask {w p : Word} (h : w &&& 0x0000707F#32 = p) :
    opcodeField w = p.extractLsb' 0 7 ∧ funct3Field w = p.extractLsb' 12 3 := by
  rw [← h]
  refine ⟨?_, ?_⟩ <;>
    (apply BitVec.eq_of_getLsbD_eq; intro i hi; simp only [opcodeField, funct3Field]; interval_cases i <;> simp)

theorem funct7Field_of_mask {w p : Word} (h : w &&& 0xFE00707F#32 = p) :
    opcodeField w = p.extractLsb' 0 7 ∧ funct3Field w = p.extractLsb' 12 3 ∧ funct7Field w = p.extractLsb' 25 7 := by
  rw [← h]
  refine ⟨?_, ?_, ?_⟩ <;>
    (apply BitVec.eq_of_getLsbD_eq; intro i hi; simp only [opcodeField, funct3Field, funct7Field]
     interval_cases i <;> simp)

theorem sfenceFields_of_mask {w p : Word} (h : w &&& 0xFE007FFF#32 = p) :
    opcodeField w = p.extractLsb' 0 7 ∧ funct3Field w = p.extractLsb' 12 3 ∧ funct7Field w = p.extractLsb' 25 7 ∧
      w.extractLsb' 7 5 = p.extractLsb' 7 5 := by
  rw [← h]
  refine ⟨?_, ?_, ?_, ?_⟩ <;>
    (apply BitVec.eq_of_getLsbD_eq; intro i hi; try simp only [opcodeField, funct3Field, funct7Field]
     interval_cases i <;> simp)

/-! ### Parts of the I immediate -/

theorem fenceFields_encodeI (fm pred succ : BitVec 4) (r1 : BitVec 5) (f3 : BitVec 3) (rd : Reg) (op : BitVec 7) :
    (encodeI (fm ++ pred ++ succ) r1 f3 rd op).extractLsb' 28 4 = fm ∧
    (encodeI (fm ++ pred ++ succ) r1 f3 rd op).extractLsb' 24 4 = pred ∧
    (encodeI (fm ++ pred ++ succ) r1 f3 rd op).extractLsb' 20 4 = succ := by
  refine ⟨?_, ?_, ?_⟩ <;>
    (apply BitVec.eq_of_getLsbD_eq; intro i hi
     simp only [BitVec.getLsbD_extractLsb', getLsbD_encodeI, BitVec.getLsbD_append]; interval_cases i <;> simp)

theorem fenceFields_append (w : Word) :
    w.extractLsb' 28 4 ++ w.extractLsb' 24 4 ++ w.extractLsb' 20 4 = immIField w := by
  apply BitVec.eq_of_getLsbD_eq
  intro i hi
  simp only [immIField, BitVec.getLsbD_extractLsb', BitVec.getLsbD_append]
  interval_cases i <;> simp

theorem shiftFields_append (w : Word) : funct7Field w ++ shamtField w = immIField w := by
  apply BitVec.eq_of_getLsbD_eq
  intro i hi
  simp only [immIField, funct7Field, shamtField, BitVec.getLsbD_extractLsb', BitVec.getLsbD_append]
  interval_cases i <;> simp

theorem regBits_rs1Field (w : Word) : regBits (rs1Field w) = zimmField w := rfl

/-- The bytes of a word, put together again, are the word. -/
theorem wordOfBytes_bytes (w : Word) :
    wordOfBytes (w.extractLsb' 0 8) (w.extractLsb' 8 8) (w.extractLsb' 16 8) (w.extractLsb' 24 8) = w := by
  unfold wordOfBytes
  apply BitVec.eq_of_getLsbD_eq
  intro i hi
  simp only [BitVec.getLsbD_append, BitVec.getLsbD_extractLsb']
  interval_cases i <;> simp

/-- What the host's word decodes to is what the word with the bits above nbits cleared decodes to. -/
theorem decodeTableWord_eq_some {nbits w : Nat} {i : Instr} (h : decodeTableWord nbits w = some i) :
    decodeWord (tableWord nbits w) = .ok i := by
  rw [decodeTableWord, bytesOfWord, decodeBytes, wordOfBytes_bytes] at h
  revert h
  cases decodeWord (tableWord nbits w) <;> simp

end Sys2Proof
end

