-- ==== Sys2Proof/Laws/Flags.lean ====
section
/-! SUPPORT. The bits of `mstatus` after trap entry and trap return, one lemma per field. -/

namespace Sys2Proof.Machine

theorem getLsbD_setBit (v : Word) (i : Nat) (b : Bool) (hi : i < 32) (k : Nat) :
    (setBit v i b).getLsbD k = if k = i then b else v.getLsbD k := by
  unfold setBit
  by_cases hk : k < 32
  · rcases Nat.lt_trichotomy k i with h | h | h
    · have : k ≠ i := by omega
      simp [hk, h, this]
    · subst h
      cases b <;> simp [hk]
    · have h1 : k ≠ i := by omega
      have h2 : ¬ k < i := by omega
      have h3 : ¬ k - i = 0 := by omega
      cases b <;> simp [hk, h1, h2, h3]
  · have h1 : k ≠ i := by omega
    have h2 : v.getLsbD k = false := BitVec.getLsbD_of_ge v k (by omega)
    simp [hk, h1, h2]

theorem getLsbD_mppMask (k : Nat) : (0x00001800#32).getLsbD k = (decide (k = 11) || decide (k = 12)) := by
  by_cases h : k < 32
  · interval_cases k <;> rfl
  · rw [BitVec.getLsbD_of_ge _ _ (by omega)]
    have h1 : k ≠ 11 := by omega
    have h2 : k ≠ 12 := by omega
    simp [h1, h2]

theorem getLsbD_setMpp (m : Word) (p : BitVec 2) (k : Nat) (h1 : k ≠ 11) (h2 : k ≠ 12) :
    (setMpp m p).getLsbD k = m.getLsbD k := by
  unfold setMpp
  rw [BitVec.getLsbD_or, BitVec.getLsbD_and, BitVec.getLsbD_not, getLsbD_mppMask, BitVec.getLsbD_shiftLeft]
  by_cases hk : k < 32
  · by_cases h : k < 11
    · simp [hk, h, h1, h2]
    · have : p.getLsbD (k - 11) = false := BitVec.getLsbD_of_ge _ _ (by omega)
      simp [hk, h, h1, h2, this]
  · rw [BitVec.getLsbD_of_ge m k (by omega)]
    simp [hk]

theorem mppField_setMpp (m : Word) (p : BitVec 2) : mppField (setMpp m p) = p := by
  apply BitVec.eq_of_getLsbD_eq
  intro i hi
  unfold mppField setMpp
  rw [BitVec.getLsbD_extractLsb', BitVec.getLsbD_or, BitVec.getLsbD_and, BitVec.getLsbD_not, getLsbD_mppMask,
    BitVec.getLsbD_shiftLeft]
  interval_cases i <;> simp

theorem mppField_eq_of_bits {m n : Word} (h : ∀ k, k = 11 ∨ k = 12 → m.getLsbD k = n.getLsbD k) :
    mppField m = mppField n := by
  apply BitVec.eq_of_getLsbD_eq
  intro i hi
  unfold mppField
  rw [BitVec.getLsbD_extractLsb', BitVec.getLsbD_extractLsb', h (11 + i) (by omega)]

/-- Trap entry to Supervisor mode, bit by bit. -/
theorem getLsbD_mstatusEnterSupervisor (m : Word) (spp : Bool) (k : Nat) :
    (mstatusEnterSupervisor m spp).getLsbD k =
      if k = 8 then spp else if k = 1 then false else if k = 5 then m.getLsbD 1 else m.getLsbD k := by
  unfold mstatusEnterSupervisor
  rw [getLsbD_setBit _ _ _ (by decide), getLsbD_setBit _ _ _ (by decide), getLsbD_setBit _ _ _ (by decide)]

/-- SRET, bit by bit. -/
theorem getLsbD_mstatusSret (m : Word) (k : Nat) :
    (mstatusSret m).getLsbD k =
      if k = 8 then false else if k = 5 then true else if k = 1 then m.getLsbD 5 else m.getLsbD k := by
  unfold mstatusSret
  rw [getLsbD_setBit _ _ _ (by decide), getLsbD_setBit _ _ _ (by decide), getLsbD_setBit _ _ _ (by decide)]

/-- Trap entry to Machine mode, bit by bit outside MPP. -/
theorem getLsbD_mstatusEnterMachine (m : Word) (mpp : BitVec 2) (k : Nat) (h1 : k ≠ 11) (h2 : k ≠ 12) :
    (mstatusEnterMachine m mpp).getLsbD k =
      if k = 3 then false else if k = 7 then m.getLsbD 3 else m.getLsbD k := by
  unfold mstatusEnterMachine
  rw [getLsbD_setMpp _ _ _ h1 h2, getLsbD_setBit _ _ _ (by decide), getLsbD_setBit _ _ _ (by decide)]

theorem mppField_mstatusEnterMachine (m : Word) (mpp : BitVec 2) : mppField (mstatusEnterMachine m mpp) = mpp :=
  mppField_setMpp _ _

/-- MRET, bit by bit outside MPP. -/
theorem getLsbD_mstatusMret (m : Word) (k : Nat) (h1 : k ≠ 11) (h2 : k ≠ 12) :
    (mstatusMret m).getLsbD k =
      if k = 7 then true else if k = 3 then m.getLsbD 7 else m.getLsbD k := by
  unfold mstatusMret
  rw [getLsbD_setMpp _ _ _ h1 h2, getLsbD_setBit _ _ _ (by decide), getLsbD_setBit _ _ _ (by decide)]

theorem mppField_mstatusMret (m : Word) : mppField (mstatusMret m) = 0#2 := mppField_setMpp _ _

end Sys2Proof.Machine
end

