-- ==== Sys2Proof/Laws/Trap.lean ====
section
/-! SUPPORT. Taking a trap and returning from one: everything the shared operations can do. -/

namespace Sys2Proof.Machine

namespace State

variable (s : State)

/-! ### enterSupervisor -/
@[simp] theorem enterSupervisor_regs (c : Cause) (epc : Word) : (s.enterSupervisor c epc).regs = s.regs := rfl
@[simp] theorem enterSupervisor_pcInst (c : Cause) (epc : Word) : (s.enterSupervisor c epc).pcInst = s.pcInst := rfl
@[simp] theorem enterSupervisor_status (c : Cause) (epc : Word) : (s.enterSupervisor c epc).status = s.status := rfl
@[simp] theorem enterSupervisor_mem (c : Cause) (epc : Word) : (s.enterSupervisor c epc).mem = s.mem := rfl
@[simp] theorem enterSupervisor_memSize (c : Cause) (epc : Word) : (s.enterSupervisor c epc).memSize = s.memSize := rfl
@[simp] theorem enterSupervisor_irqInputs (c : Cause) (epc : Word) : (s.enterSupervisor c epc).irqInputs = s.irqInputs := rfl
@[simp] theorem enterSupervisor_mode (c : Cause) (epc : Word) : (s.enterSupervisor c epc).mode = .supervisor := rfl
@[simp] theorem enterSupervisor_prevMode (c : Cause) (epc : Word) : (s.enterSupervisor c epc).prevMode = s.mode := rfl
@[simp] theorem enterSupervisor_pc (c : Cause) (epc : Word) :
    (s.enterSupervisor c epc).pc = vectorAddress (s.csrRaw csrStvec) c.code := rfl
@[simp] theorem x_enterSupervisor (c : Cause) (epc : Word) (q : Reg) : (s.enterSupervisor c epc).x q = s.x q := rfl
@[simp] theorem read8_enterSupervisor (c : Cause) (epc : Word) (q : Word) : (s.enterSupervisor c epc).read8 q = s.read8 q := rfl

/-! ### enterMachine -/
@[simp] theorem enterMachine_regs (c : Cause) (epc : Word) (mpp : BitVec 2) : (s.enterMachine c epc mpp).regs = s.regs := rfl
@[simp] theorem enterMachine_pcInst (c : Cause) (epc : Word) (mpp : BitVec 2) : (s.enterMachine c epc mpp).pcInst = s.pcInst := rfl
@[simp] theorem enterMachine_status (c : Cause) (epc : Word) (mpp : BitVec 2) : (s.enterMachine c epc mpp).status = s.status := rfl
@[simp] theorem enterMachine_mem (c : Cause) (epc : Word) (mpp : BitVec 2) : (s.enterMachine c epc mpp).mem = s.mem := rfl
@[simp] theorem enterMachine_memSize (c : Cause) (epc : Word) (mpp : BitVec 2) : (s.enterMachine c epc mpp).memSize = s.memSize := rfl
@[simp] theorem enterMachine_irqInputs (c : Cause) (epc : Word) (mpp : BitVec 2) : (s.enterMachine c epc mpp).irqInputs = s.irqInputs := rfl
@[simp] theorem enterMachine_mode (c : Cause) (epc : Word) (mpp : BitVec 2) : (s.enterMachine c epc mpp).mode = .machine := rfl
@[simp] theorem enterMachine_prevMode (c : Cause) (epc : Word) (mpp : BitVec 2) : (s.enterMachine c epc mpp).prevMode = s.mode := rfl
@[simp] theorem enterMachine_pc (c : Cause) (epc : Word) (mpp : BitVec 2) :
    (s.enterMachine c epc mpp).pc = vectorAddress (s.csrRaw csrMtvec) c.code := rfl
@[simp] theorem x_enterMachine (c : Cause) (epc : Word) (mpp : BitVec 2) (q : Reg) : (s.enterMachine c epc mpp).x q = s.x q := rfl
@[simp] theorem read8_enterMachine (c : Cause) (epc : Word) (mpp : BitVec 2) (q : Word) : (s.enterMachine c epc mpp).read8 q = s.read8 q := rfl

/-! ### returnFromSupervisor -/
@[simp] theorem returnFromSupervisor_regs : s.returnFromSupervisor.regs = s.regs := rfl
@[simp] theorem returnFromSupervisor_pcInst : s.returnFromSupervisor.pcInst = s.pcInst := rfl
@[simp] theorem returnFromSupervisor_prevMode : s.returnFromSupervisor.prevMode = s.prevMode := rfl
@[simp] theorem returnFromSupervisor_status : s.returnFromSupervisor.status = s.status := rfl
@[simp] theorem returnFromSupervisor_mem : s.returnFromSupervisor.mem = s.mem := rfl
@[simp] theorem returnFromSupervisor_memSize : s.returnFromSupervisor.memSize = s.memSize := rfl
@[simp] theorem returnFromSupervisor_irqInputs : s.returnFromSupervisor.irqInputs = s.irqInputs := rfl
@[simp] theorem returnFromSupervisor_pc : s.returnFromSupervisor.pc = s.csrRaw csrSepc := rfl
@[simp] theorem returnFromSupervisor_mode :
    s.returnFromSupervisor.mode = if (s.csrRaw csrMstatus).getLsbD bitSpp then .supervisor else .user := rfl
@[simp] theorem x_returnFromSupervisor (q : Reg) : s.returnFromSupervisor.x q = s.x q := rfl
@[simp] theorem read8_returnFromSupervisor (q : Word) : s.returnFromSupervisor.read8 q = s.read8 q := rfl

/-- The bank after a trap to Supervisor mode. -/
theorem csrRaw_enterSupervisor (c : Cause) (epc : Word) (a : CsrAddr) :
    (s.enterSupervisor c epc).csrRaw a =
      if a = csrMstatus then mstatusEnterSupervisor (s.csrRaw csrMstatus) (s.mode != .user)
      else if a = csrStval then 0#32 else if a = csrScause then c.value else if a = csrSepc then epc
      else s.csrRaw a := by
  simp only [enterSupervisor, csrRaw_setCsrRaw]
  rfl

/-- The bank after a trap to Machine mode. -/
theorem csrRaw_enterMachine (c : Cause) (epc : Word) (mpp : BitVec 2) (a : CsrAddr) :
    (s.enterMachine c epc mpp).csrRaw a =
      if a = csrMstatus then mstatusEnterMachine (s.csrRaw csrMstatus) mpp
      else if a = csrMtval then 0#32 else if a = csrMcause then c.value else if a = csrMepc then epc
      else s.csrRaw a := by
  simp only [enterMachine, csrRaw_setCsrRaw]
  rfl

/-- The bank after SRET. -/
theorem csrRaw_returnFromSupervisor (a : CsrAddr) :
    s.returnFromSupervisor.csrRaw a =
      if a = csrMstatus then mstatusSret (s.csrRaw csrMstatus) else s.csrRaw a := by
  simp only [returnFromSupervisor, csrRaw_setCsrRaw]
  rfl

/-- Everything MRET can do once allowed: with a legal MPP, a next state. -/
theorem returnFromMachine_of_mode {m : Mode} (h : modeOfMpp (mppField (s.csrRaw csrMstatus)) = some m) :
    s.returnFromMachine =
      .next (({ s with pc := s.csrRaw csrMepc, mode := m } : State).setCsrRaw csrMstatus
        (mstatusMret (s.csrRaw csrMstatus))) := by
  simp [returnFromMachine, h]

theorem returnFromMachine_next {t : State} (h : s.returnFromMachine = .next t) :
    ∃ m, modeOfMpp (mppField (s.csrRaw csrMstatus)) = some m ∧
      t = ({ s with pc := s.csrRaw csrMepc, mode := m } : State).setCsrRaw csrMstatus
        (mstatusMret (s.csrRaw csrMstatus)) := by
  unfold returnFromMachine at h
  split at h
  · next m hm => exact ⟨m, hm, by simpa using h.symm⟩
  · cases h

end State

/-- Everything `TrapEntry` can do when it answers a next state (60_exceptions.md R411). -/
theorem trapEntry_next {c : Cause} {epc : Word} {s t : State} (h : trapEntry c epc s = .next t) :
    (s.delegated c = true ∧ t = s.enterSupervisor c epc) ∨
      (s.delegated c = false ∧ ∃ mpp, s.mode.enc = some mpp ∧ t = s.enterMachine c epc mpp) := by
  unfold trapEntry at h
  split at h
  · next hd => exact .inl ⟨hd, by simpa using h.symm⟩
  · next hd =>
    refine .inr ⟨by simpa using hd, ?_⟩
    split at h
    · next mpp hm => exact ⟨mpp, hm, by simpa using h.symm⟩
    · cases h

theorem trapEntry_of_delegated {c : Cause} {epc : Word} {s : State} (h : s.delegated c = true) :
    trapEntry c epc s = .next (s.enterSupervisor c epc) := by simp [trapEntry, h]

theorem trapEntry_of_enc {c : Cause} {epc : Word} {s : State} {mpp : BitVec 2} (h : s.delegated c = false)
    (hm : s.mode.enc = some mpp) : trapEntry c epc s = .next (s.enterMachine c epc mpp) := by
  simp [trapEntry, h, hm]

/-- A delegated trap is taken in U or S. -/
theorem delegated_mode {s : State} {c : Cause} (h : s.delegated c = true) :
    s.mode = .user ∨ s.mode = .supervisor := by
  have := (Bool.and_eq_true_iff.mp h).1
  simpa using this

end Sys2Proof.Machine
end

