-- ==== Sys2Proof/Laws/Exec.lean ====
section
/-! SUPPORT. What an instruction can do, said once: every next state of `exec` is one of the listed updates. -/

namespace Sys2Proof.Machine

/-- The updates an instruction's next state can be. -/
inductive Effect (s : State) : State → Prop
  | none : Effect s s
  | register (rd : Reg) (v : Word) : Effect s (s.setX rd v)
  | jump (target : Word) : Effect s (s.setPc target)
  | link (rd : Reg) (v target : Word) : Effect s ((s.setX rd v).setPc target)
  | store8 (a : Word) (v : Byte) : Effect s (s.write8 a v)
  | store16 (a : Word) (v : BitVec 16) : Effect s (s.write16 a v)
  | store32 (a v : Word) : Effect s (s.write32 a v)
  | csr (rd : Reg) (a : CsrAddr) (v : Word) (allowed : s.csrAllowed a = true) :
      Effect s ((s.csrWrite a v).setX rd (s.csrRead a))
  | trap (e : ExceptionKind) (t : State) (h : raise e s = .next t) : Effect s t
  | halt : Effect s (haltUnimplemented (s.setPc s.pcInst))
  | sret (allowed : s.mode.atLeast 1 = true) : Effect s s.returnFromSupervisor
  | mret (t : State) (allowed : s.mode.atLeast 3 = true) (h : s.returnFromMachine = .next t) : Effect s t

theorem csrInstr_next {f : Word → Word → Word} {rd : Reg} {a : CsrAddr} {src : Word} {s t : State}
    (h : csrInstr f rd a src s = .next t) : Effect s t := by
  unfold csrInstr at h
  split at h
  · next ha => cases h; exact .csr rd a _ ha
  · exact .trap _ _ h

theorem branch_next {c : Word → Word → Bool} {rs1 rs2 : Reg} {imm : BitVec 13} {s t : State}
    (h : branch c rs1 rs2 imm s = .next t) : Effect s t := by
  unfold branch at h
  cases h
  split
  · exact .jump _
  · exact .none

/-- Every next state of an instruction is an `Effect`. -/
theorem exec_next {i : Instr} {s t : State} (h : exec i s = .next t) : Effect s t := by
  cases i with
  | lb | lh | lw | lbu | lhu => cases h; exact .register _ _
  | sb => cases h; exact .store8 _ _
  | sh => cases h; exact .store16 _ _
  | sw => cases h; exact .store32 _ _
  | fence | fenceI | wfi | sfenceVma => cases h; exact .none
  | addi | slti | sltiu | xori | ori | andi | slli | srli | srai => cases h; exact .register _ _
  | auipc | lui => cases h; exact .register _ _
  | add | sub | sll | slt | sltu | xor | srl | sra | or | and => cases h; exact .register _ _
  | beq | bne | blt | bge | bltu | bgeu => exact branch_next h
  | jalr | jal => cases h; exact .link _ _ _
  | csrrw | csrrs | csrrc | csrrwi | csrrsi | csrrci => exact csrInstr_next h
  | ecall =>
    change execEcall s = _ at h
    unfold execEcall at h
    split at h
    · exact .trap _ _ h
    · exact .trap _ _ h
    · exact .trap _ _ h
    · cases h
  | ebreak => exact .trap _ _ h
  | uret => cases h; exact .halt
  | sret =>
    change execSret s = _ at h
    unfold execSret at h
    split at h
    · next ha => cases h; exact .sret ha
    · exact .trap _ _ h
  | mret =>
    change execMret s = _ at h
    unfold execMret at h
    split at h
    · next ha => exact .mret _ ha h
    · exact .trap _ _ h

end Sys2Proof.Machine
end

