-- ==== Sys2Proof/Laws/Memory.lean ====
section
/-! SUPPORT. The bus: a byte read after each store, wider reads as bytes, and the canonical form. -/

namespace Sys2Proof.Machine

theorem read8_eq (s : State) (b : Word) :
    s.read8 b = if b.toNat < s.memSize then sparseRead b.toNat s.mem else 0#8 := by
  simp [State.read8, State.backed]

theorem write16_mem_of_backed {s : State} {a : Word} (ha : a.toNat < s.memSize) (v : BitVec 16) :
    (s.write16 a v).mem =
      sparseWrite ((alignHalf a).toNat + 1) (v.extractLsb' 8 8)
        (sparseWrite (alignHalf a).toNat (v.extractLsb' 0 8) s.mem) := by
  simp [State.write16, State.backed, ha]

theorem write32_mem_of_backed {s : State} {a : Word} (ha : a.toNat < s.memSize) (v : Word) :
    (s.write32 a v).mem =
      sparseWrite ((alignWord a).toNat + 3) (v.extractLsb' 24 8)
        (sparseWrite ((alignWord a).toNat + 2) (v.extractLsb' 16 8)
          (sparseWrite ((alignWord a).toNat + 1) (v.extractLsb' 8 8)
            (sparseWrite (alignWord a).toNat (v.extractLsb' 0 8) s.mem))) := by
  simp [State.write32, State.backed, ha]

/-! ### Aligned addresses -/

theorem toNat_alignHalf (a : Word) : (alignHalf a).toNat = a.toNat / 2 * 2 := by
  have h : alignHalf a = (a >>> 1) <<< 1 := by
    apply BitVec.eq_of_getLsbD_eq
    intro i hi
    rw [BitVec.getLsbD_shiftLeft, BitVec.getLsbD_ushiftRight]
    unfold alignHalf
    rw [BitVec.getLsbD_and, BitVec.getLsbD_not, BitVec.getLsbD_one]
    by_cases h0 : i = 0
    · subst h0; simp
    · have h1 : 1 + (i - 1) = i := by omega
      have h2 : ¬ i < 1 := by omega
      simp [hi, h0, h1, h2]
  rw [h, BitVec.toNat_shiftLeft, BitVec.toNat_ushiftRight, Nat.shiftLeft_eq, Nat.shiftRight_eq_div_pow]
  have := a.isLt
  omega

theorem toNat_alignWord (a : Word) : (alignWord a).toNat = a.toNat / 4 * 4 := by
  have h : alignWord a = (a >>> 2) <<< 2 := by
    apply BitVec.eq_of_getLsbD_eq
    intro i hi
    rw [BitVec.getLsbD_shiftLeft, BitVec.getLsbD_ushiftRight]
    unfold alignWord
    rw [BitVec.getLsbD_and, BitVec.getLsbD_not]
    by_cases h0 : i < 2
    · interval_cases i <;> simp
    · have h1 : 2 + (i - 2) = i := by omega
      have h3 : (3#32).getLsbD i = false := by
        interval_cases i <;> rfl
      rw [h1, h3]
      simp [hi, h0]
  rw [h, BitVec.toNat_shiftLeft, BitVec.toNat_ushiftRight, Nat.shiftLeft_eq, Nat.shiftRight_eq_div_pow]
  have := a.isLt
  omega

theorem backed_iff (s : State) (a : Word) : s.backed a = true ↔ a.toNat < s.memSize := by
  simp [State.backed]

/-- The unit's addresses lie below `MEM_SIZE` exactly when the issued address does (20_memory.md R102). -/
theorem alignWord_backed {s : State} (h : Config.ValidMemSize s.memSize) {a : Word} (k : Nat) (hk : k < 4) :
    (alignWord a).toNat + k < s.memSize ↔ a.toNat < s.memSize := by
  have := h.1
  rw [toNat_alignWord]
  omega

theorem alignHalf_backed {s : State} (h : Config.ValidMemSize s.memSize) {a : Word} (k : Nat) (hk : k < 2) :
    (alignHalf a).toNat + k < s.memSize ↔ a.toNat < s.memSize := by
  have := h.1
  rw [toNat_alignHalf]
  omega

theorem toNat_alignWord_add (a : Word) (k : Nat) (hk : k < 4) :
    (alignWord a + BitVec.ofNat 32 k).toNat = (alignWord a).toNat + k := by
  have := a.isLt
  rw [BitVec.toNat_add, BitVec.toNat_ofNat, toNat_alignWord]
  omega

theorem toNat_alignHalf_add (a : Word) (k : Nat) (hk : k < 2) :
    (alignHalf a + BitVec.ofNat 32 k).toNat = (alignHalf a).toNat + k := by
  have := a.isLt
  rw [BitVec.toNat_add, BitVec.toNat_ofNat, toNat_alignHalf]
  omega

/-! ### Wider reads as bytes (20_memory.md R104, R118) -/

theorem read8_alignHalf_add {s : State} (h : Config.ValidMemSize s.memSize) (a : Word) (k : Nat) (hk : k < 2) :
    s.read8 (alignHalf a + BitVec.ofNat 32 k) =
      if a.toNat < s.memSize then sparseRead ((alignHalf a).toNat + k) s.mem else 0#8 := by
  simp only [State.read8, State.backed, toNat_alignHalf_add a k hk, alignHalf_backed h k hk]
  simp

theorem read8_alignWord_add {s : State} (h : Config.ValidMemSize s.memSize) (a : Word) (k : Nat) (hk : k < 4) :
    s.read8 (alignWord a + BitVec.ofNat 32 k) =
      if a.toNat < s.memSize then sparseRead ((alignWord a).toNat + k) s.mem else 0#8 := by
  simp only [State.read8, State.backed, toNat_alignWord_add a k hk, alignWord_backed h k hk]
  simp

theorem read16_eq_bytes {s : State} (h : Config.ValidMemSize s.memSize) (a : Word) :
    s.read16 a = s.read8 (alignHalf a + 1#32) ++ s.read8 (alignHalf a) := by
  have h0 := read8_alignHalf_add h a 0 (by omega)
  have h1 := read8_alignHalf_add h a 1 (by omega)
  simp only [BitVec.add_zero, Nat.add_zero] at h0
  rw [h0, h1]
  by_cases hb : a.toNat < s.memSize
  · simp [State.read16, State.backed, hb]
  · simp only [State.read16, State.backed, hb, decide_false, Bool.false_eq_true, if_false]
    rfl

theorem read32_eq_bytes {s : State} (h : Config.ValidMemSize s.memSize) (a : Word) :
    s.read32 a = s.read8 (alignWord a + 3#32) ++ s.read8 (alignWord a + 2#32) ++ s.read8 (alignWord a + 1#32)
      ++ s.read8 (alignWord a) := by
  have h0 := read8_alignWord_add h a 0 (by omega)
  have h1 := read8_alignWord_add h a 1 (by omega)
  have h2 := read8_alignWord_add h a 2 (by omega)
  have h3 := read8_alignWord_add h a 3 (by omega)
  simp only [BitVec.add_zero, Nat.add_zero] at h0
  rw [h0, h1, h2, h3]
  by_cases hb : a.toNat < s.memSize
  · simp [State.read32, State.backed, hb, wordOfBytes]
  · simp only [State.read32, State.backed, hb, decide_false, Bool.false_eq_true, if_false]
    rfl

/-! ### A byte read after a store (20_memory.md R105) -/

theorem read8_write8 (s : State) (a : Word) (v : Byte) (b : Word) :
    (s.write8 a v).read8 b = if s.backed a ∧ b = a then v else s.read8 b := by
  unfold State.read8 State.write8 State.backed
  by_cases ha : a.toNat < s.memSize
  · by_cases hb : b = a
    · subst hb; simp [ha]
    · have : b.toNat ≠ a.toNat := fun h => hb (BitVec.eq_of_toNat_eq h)
      simp [ha, hb, sparseRead_write_other this]
  · simp [ha]

theorem toNat_sub_alignHalf_lt (a b : Word) :
    (b - alignHalf a).toNat < 2 ↔ b.toNat = (alignHalf a).toNat ∨ b.toNat = (alignHalf a).toNat + 1 := by
  have := a.isLt
  have := b.isLt
  have e := toNat_alignHalf a
  rw [BitVec.toNat_sub]
  omega

theorem toNat_sub_alignWord_lt (a b : Word) :
    (b - alignWord a).toNat < 4 ↔
      b.toNat = (alignWord a).toNat ∨ b.toNat = (alignWord a).toNat + 1 ∨
      b.toNat = (alignWord a).toNat + 2 ∨ b.toNat = (alignWord a).toNat + 3 := by
  have := a.isLt
  have := b.isLt
  have e := toNat_alignWord a
  rw [BitVec.toNat_sub]
  omega

theorem toNat_sub_of_add {a b : Word} {k : Nat} (h : b.toNat = a.toNat + k) : (b - a).toNat = k := by
  have := a.isLt
  have := b.isLt
  rw [BitVec.toNat_sub]
  omega

theorem read8_write16 {s : State} (h : Config.ValidMemSize s.memSize) (a : Word) (v : BitVec 16) (b : Word) :
    (s.write16 a v).read8 b =
      if s.backed a ∧ (b - alignHalf a).toNat < 2 then v.extractLsb' (8 * (b - alignHalf a).toNat) 8
      else s.read8 b := by
  by_cases ha : a.toNat < s.memSize
  · by_cases hb : (b - alignHalf a).toNat < 2
    · rw [if_pos ⟨(backed_iff s a).mpr ha, hb⟩]
      rcases (toNat_sub_alignHalf_lt a b).mp hb with e | e
      · have hbk : b.toNat < s.memSize := by rw [e]; exact (alignHalf_backed h 0 (by omega)).mpr ha
        rw [toNat_sub_of_add (k := 0) e]
        rw [read8_eq, State.write16_memSize, if_pos hbk, write16_mem_of_backed ha, e, sparseRead_write_other (by omega), sparseRead_write_same]
      · have hbk : b.toNat < s.memSize := by rw [e]; exact (alignHalf_backed h 1 (by omega)).mpr ha
        rw [toNat_sub_of_add e]
        rw [read8_eq, State.write16_memSize, if_pos hbk, write16_mem_of_backed ha, e, sparseRead_write_same]
    · rw [if_neg (fun c => hb c.2)]
      have hn : ¬ (b.toNat = (alignHalf a).toNat ∨ b.toNat = (alignHalf a).toNat + 1) :=
        fun c => hb ((toNat_sub_alignHalf_lt a b).mpr c)
      rw [read8_eq, read8_eq, State.write16_memSize, write16_mem_of_backed ha, sparseRead_write_other (by omega), sparseRead_write_other (by omega)]
  · rw [if_neg (fun c => ha ((backed_iff s a).mp c.1))]
    simp [State.read8, State.write16, State.backed, ha]

theorem read8_write32 {s : State} (h : Config.ValidMemSize s.memSize) (a v b : Word) :
    (s.write32 a v).read8 b =
      if s.backed a ∧ (b - alignWord a).toNat < 4 then v.extractLsb' (8 * (b - alignWord a).toNat) 8
      else s.read8 b := by
  by_cases ha : a.toNat < s.memSize
  · by_cases hb : (b - alignWord a).toNat < 4
    · rw [if_pos ⟨(backed_iff s a).mpr ha, hb⟩]
      rcases (toNat_sub_alignWord_lt a b).mp hb with e | e | e | e
      · have hbk : b.toNat < s.memSize := by rw [e]; exact (alignWord_backed h 0 (by omega)).mpr ha
        rw [toNat_sub_of_add (k := 0) e]
        rw [read8_eq, State.write32_memSize, if_pos hbk, write32_mem_of_backed ha, e, sparseRead_write_other (by omega), sparseRead_write_other (by omega), sparseRead_write_other (by omega),
          sparseRead_write_same]
      · have hbk : b.toNat < s.memSize := by rw [e]; exact (alignWord_backed h 1 (by omega)).mpr ha
        rw [toNat_sub_of_add e]
        rw [read8_eq, State.write32_memSize, if_pos hbk, write32_mem_of_backed ha, e, sparseRead_write_other (by omega), sparseRead_write_other (by omega), sparseRead_write_same]
      · have hbk : b.toNat < s.memSize := by rw [e]; exact (alignWord_backed h 2 (by omega)).mpr ha
        rw [toNat_sub_of_add e]
        rw [read8_eq, State.write32_memSize, if_pos hbk, write32_mem_of_backed ha, e, sparseRead_write_other (by omega), sparseRead_write_same]
      · have hbk : b.toNat < s.memSize := by rw [e]; exact (alignWord_backed h 3 (by omega)).mpr ha
        rw [toNat_sub_of_add e]
        rw [read8_eq, State.write32_memSize, if_pos hbk, write32_mem_of_backed ha, e, sparseRead_write_same]
    · rw [if_neg (fun c => hb c.2)]
      have hn : ¬ (b.toNat = (alignWord a).toNat ∨ b.toNat = (alignWord a).toNat + 1 ∨
          b.toNat = (alignWord a).toNat + 2 ∨ b.toNat = (alignWord a).toNat + 3) :=
        fun c => hb ((toNat_sub_alignWord_lt a b).mpr c)
      rw [read8_eq, read8_eq, State.write32_memSize, write32_mem_of_backed ha, sparseRead_write_other (by omega), sparseRead_write_other (by omega), sparseRead_write_other (by omega),
        sparseRead_write_other (by omega)]
  · rw [if_neg (fun c => ha ((backed_iff s a).mp c.1))]
    simp [State.read8, State.write32, State.backed, ha]

/-! ### A word read after a word store -/

theorem read32_write32 {s : State} {a b : Word} (v : Word) (ha : a.toNat < s.memSize) (hb : b.toNat < s.memSize)
    (h : alignWord b = alignWord a) : (s.write32 a v).read32 b = v := by
  have hb' : (s.write32 a v).backed b = true := (backed_iff _ _).mpr hb
  unfold State.read32
  rw [if_pos hb', write32_mem_of_backed ha, h]
  refine Eq.trans ?_ (wordOfBytes_bytes v)
  simp [sparseRead_write]

/-! ### The canonical form and the bound -/

theorem write8_wf {s : State} (a : Word) (v : Byte) (h : Memory.wf s.mem) : Memory.wf (s.write8 a v).mem := by
  unfold State.write8
  dsimp only
  split
  · exact sparseWrite_wf _ _ h
  · exact h

theorem write16_wf {s : State} (a : Word) (v : BitVec 16) (h : Memory.wf s.mem) :
    Memory.wf (s.write16 a v).mem := by
  unfold State.write16
  dsimp only
  split
  · exact sparseWrite_wf _ _ (sparseWrite_wf _ _ h)
  · exact h

theorem write32_wf {s : State} (a v : Word) (h : Memory.wf s.mem) : Memory.wf (s.write32 a v).mem := by
  unfold State.write32
  dsimp only
  split
  · exact sparseWrite_wf _ _ (sparseWrite_wf _ _ (sparseWrite_wf _ _ (sparseWrite_wf _ _ h)))
  · exact h

theorem write8_below {s : State} (a : Word) (v : Byte) (h : ∀ c ∈ s.mem, c.1 < s.memSize) :
    ∀ c ∈ (s.write8 a v).mem, c.1 < s.memSize := by
  unfold State.write8
  dsimp only
  split
  · next hb => exact sparseWrite_below v ((backed_iff s a).mp hb) h
  · exact h

theorem write16_below {s : State} (hv : Config.ValidMemSize s.memSize) (a : Word) (v : BitVec 16)
    (h : ∀ c ∈ s.mem, c.1 < s.memSize) : ∀ c ∈ (s.write16 a v).mem, c.1 < s.memSize := by
  unfold State.write16
  dsimp only
  split
  · next hb =>
    have hb := (backed_iff s a).mp hb
    exact sparseWrite_below _ ((alignHalf_backed hv 1 (by omega)).mpr hb)
      (sparseWrite_below _ ((alignHalf_backed hv 0 (by omega)).mpr hb) h)
  · exact h

theorem write32_below {s : State} (hv : Config.ValidMemSize s.memSize) (a v : Word)
    (h : ∀ c ∈ s.mem, c.1 < s.memSize) : ∀ c ∈ (s.write32 a v).mem, c.1 < s.memSize := by
  unfold State.write32
  dsimp only
  split
  · next hb =>
    have hb := (backed_iff s a).mp hb
    exact sparseWrite_below _ ((alignWord_backed hv 3 (by omega)).mpr hb)
      (sparseWrite_below _ ((alignWord_backed hv 2 (by omega)).mpr hb)
        (sparseWrite_below _ ((alignWord_backed hv 1 (by omega)).mpr hb)
          (sparseWrite_below _ ((alignWord_backed hv 0 (by omega)).mpr hb) h)))
  · exact h

/-! ### A word placed for the next fetch -/

theorem deliverable_pollIrq_withFetchWord (s : State) (nbits w : Nat) :
    (s.withFetchWord nbits w).pollIrq.deliverable = s.pollIrq.deliverable := rfl

theorem fetchWord_pollIrq_withFetchWord {s : State} (nbits w : Nat) (h : s.pc.toNat < s.memSize) :
    (s.withFetchWord nbits w).pollIrq.fetchWord = tableWord nbits w :=
  (show _ = (s.write32 s.pc (tableWord nbits w)).read32 s.pc from rfl).trans (read32_write32 _ h h rfl)

end Sys2Proof.Machine
end

