-- ==== Sys2Proof/Laws/PerInstr.lean ====
section
/-! SUPPORT. Per-instruction law: every instruction's word lies in its own row of spec/opcode_table.json. -/

namespace Sys2Proof.Laws.EncodesIntoRow

/-- The word of the instruction matches the row with the instruction's mnemonic. -/
def Statement (i : Instr) : Prop := ∃ row ∈ opcodeTable, row.mnemonic = i.mnemonic ∧ row.Matches (encode i)

theorem memory_rows {row : OpcodeRow} (h : row ∈ opcodeRowsMemory) : row ∈ opcodeTable := by simp [opcodeTable, h]
theorem immediate_rows {row : OpcodeRow} (h : row ∈ opcodeRowsImmediate) : row ∈ opcodeTable := by
  simp [opcodeTable, h]
theorem register_rows {row : OpcodeRow} (h : row ∈ opcodeRowsRegister) : row ∈ opcodeTable := by
  simp [opcodeTable, h]
theorem control_rows {row : OpcodeRow} (h : row ∈ opcodeRowsControl) : row ∈ opcodeTable := by simp [opcodeTable, h]
theorem system_rows {row : OpcodeRow} (h : row ∈ opcodeRowsSystem) : row ∈ opcodeTable := by simp [opcodeTable, h]

theorem matches_opcode {w p : Word} {op : BitVec 7} (ho : opcodeField w = op) (hp : op.setWidth 32 = p) :
    w &&& 0x0000007F#32 = p := by rw [and_mask_opcode, ho, hp]

theorem matches_funct3 {w p : Word} {f3 : BitVec 3} {op : BitVec 7} (h3 : funct3Field w = f3)
    (ho : opcodeField w = op) (hp : (f3.setWidth 32 <<< 12) ||| op.setWidth 32 = p) :
    w &&& 0x0000707F#32 = p := by rw [and_mask_funct3, h3, ho, hp]

theorem matches_funct7 {w p : Word} {f7 : BitVec 7} {f3 : BitVec 3} {op : BitVec 7} (h7 : funct7Field w = f7)
    (h3 : funct3Field w = f3) (ho : opcodeField w = op)
    (hp : (f7.setWidth 32 <<< 25) ||| (f3.setWidth 32 <<< 12) ||| op.setWidth 32 = p) :
    w &&& 0xFE00707F#32 = p := by rw [and_mask_funct7, h7, h3, ho, hp]

theorem lb (rd rs1 : Reg) (imm : BitVec 12) : Statement (.lb rd rs1 imm) :=
  ⟨⟨"LB", 0x0000707F, 0x00000003⟩, memory_rows (by simp [opcodeRowsMemory]), rfl,
    matches_funct3 (funct3Field_encodeI ..) (opcodeField_encodeI ..) rfl⟩
theorem lh (rd rs1 : Reg) (imm : BitVec 12) : Statement (.lh rd rs1 imm) :=
  ⟨⟨"LH", 0x0000707F, 0x00001003⟩, memory_rows (by simp [opcodeRowsMemory]), rfl,
    matches_funct3 (funct3Field_encodeI ..) (opcodeField_encodeI ..) rfl⟩
theorem lw (rd rs1 : Reg) (imm : BitVec 12) : Statement (.lw rd rs1 imm) :=
  ⟨⟨"LW", 0x0000707F, 0x00002003⟩, memory_rows (by simp [opcodeRowsMemory]), rfl,
    matches_funct3 (funct3Field_encodeI ..) (opcodeField_encodeI ..) rfl⟩
theorem lbu (rd rs1 : Reg) (imm : BitVec 12) : Statement (.lbu rd rs1 imm) :=
  ⟨⟨"LBU", 0x0000707F, 0x00004003⟩, memory_rows (by simp [opcodeRowsMemory]), rfl,
    matches_funct3 (funct3Field_encodeI ..) (opcodeField_encodeI ..) rfl⟩
theorem lhu (rd rs1 : Reg) (imm : BitVec 12) : Statement (.lhu rd rs1 imm) :=
  ⟨⟨"LHU", 0x0000707F, 0x00005003⟩, memory_rows (by simp [opcodeRowsMemory]), rfl,
    matches_funct3 (funct3Field_encodeI ..) (opcodeField_encodeI ..) rfl⟩
theorem sb (rs1 rs2 : Reg) (imm : BitVec 12) : Statement (.sb rs1 rs2 imm) :=
  ⟨⟨"SB", 0x0000707F, 0x00000023⟩, memory_rows (by simp [opcodeRowsMemory]), rfl,
    matches_funct3 (funct3Field_encodeS ..) (opcodeField_encodeS ..) rfl⟩
theorem sh (rs1 rs2 : Reg) (imm : BitVec 12) : Statement (.sh rs1 rs2 imm) :=
  ⟨⟨"SH", 0x0000707F, 0x00001023⟩, memory_rows (by simp [opcodeRowsMemory]), rfl,
    matches_funct3 (funct3Field_encodeS ..) (opcodeField_encodeS ..) rfl⟩
theorem sw (rs1 rs2 : Reg) (imm : BitVec 12) : Statement (.sw rs1 rs2 imm) :=
  ⟨⟨"SW", 0x0000707F, 0x00002023⟩, memory_rows (by simp [opcodeRowsMemory]), rfl,
    matches_funct3 (funct3Field_encodeS ..) (opcodeField_encodeS ..) rfl⟩
theorem fence (fm pred succ : BitVec 4) (rs1 rd : Reg) : Statement (.fence fm pred succ rs1 rd) :=
  ⟨⟨"FENCE", 0x0000707F, 0x0000000F⟩, memory_rows (by simp [opcodeRowsMemory]), rfl,
    matches_funct3 (funct3Field_encodeI ..) (opcodeField_encodeI ..) rfl⟩
theorem fenceI (imm : BitVec 12) (rs1 rd : Reg) : Statement (.fenceI imm rs1 rd) :=
  ⟨⟨"FENCE.I", 0x0000707F, 0x0000100F⟩, memory_rows (by simp [opcodeRowsMemory]), rfl,
    matches_funct3 (funct3Field_encodeI ..) (opcodeField_encodeI ..) rfl⟩
theorem addi (rd rs1 : Reg) (imm : BitVec 12) : Statement (.addi rd rs1 imm) :=
  ⟨⟨"ADDI", 0x0000707F, 0x00000013⟩, immediate_rows (by simp [opcodeRowsImmediate]), rfl,
    matches_funct3 (funct3Field_encodeI ..) (opcodeField_encodeI ..) rfl⟩
theorem slti (rd rs1 : Reg) (imm : BitVec 12) : Statement (.slti rd rs1 imm) :=
  ⟨⟨"SLTI", 0x0000707F, 0x00002013⟩, immediate_rows (by simp [opcodeRowsImmediate]), rfl,
    matches_funct3 (funct3Field_encodeI ..) (opcodeField_encodeI ..) rfl⟩
theorem sltiu (rd rs1 : Reg) (imm : BitVec 12) : Statement (.sltiu rd rs1 imm) :=
  ⟨⟨"SLTIU", 0x0000707F, 0x00003013⟩, immediate_rows (by simp [opcodeRowsImmediate]), rfl,
    matches_funct3 (funct3Field_encodeI ..) (opcodeField_encodeI ..) rfl⟩
theorem xori (rd rs1 : Reg) (imm : BitVec 12) : Statement (.xori rd rs1 imm) :=
  ⟨⟨"XORI", 0x0000707F, 0x00004013⟩, immediate_rows (by simp [opcodeRowsImmediate]), rfl,
    matches_funct3 (funct3Field_encodeI ..) (opcodeField_encodeI ..) rfl⟩
theorem ori (rd rs1 : Reg) (imm : BitVec 12) : Statement (.ori rd rs1 imm) :=
  ⟨⟨"ORI", 0x0000707F, 0x00006013⟩, immediate_rows (by simp [opcodeRowsImmediate]), rfl,
    matches_funct3 (funct3Field_encodeI ..) (opcodeField_encodeI ..) rfl⟩
theorem andi (rd rs1 : Reg) (imm : BitVec 12) : Statement (.andi rd rs1 imm) :=
  ⟨⟨"ANDI", 0x0000707F, 0x00007013⟩, immediate_rows (by simp [opcodeRowsImmediate]), rfl,
    matches_funct3 (funct3Field_encodeI ..) (opcodeField_encodeI ..) rfl⟩
theorem slli (rd rs1 : Reg) (shamt : BitVec 5) : Statement (.slli rd rs1 shamt) :=
  ⟨⟨"SLLI", 0xFE00707F, 0x00001013⟩, immediate_rows (by simp [opcodeRowsImmediate]), rfl,
    matches_funct7 (funct7Field_encodeI ..) (funct3Field_encodeI ..) (opcodeField_encodeI ..) rfl⟩
theorem srli (rd rs1 : Reg) (shamt : BitVec 5) : Statement (.srli rd rs1 shamt) :=
  ⟨⟨"SRLI", 0xFE00707F, 0x00005013⟩, immediate_rows (by simp [opcodeRowsImmediate]), rfl,
    matches_funct7 (funct7Field_encodeI ..) (funct3Field_encodeI ..) (opcodeField_encodeI ..) rfl⟩
theorem srai (rd rs1 : Reg) (shamt : BitVec 5) : Statement (.srai rd rs1 shamt) :=
  ⟨⟨"SRAI", 0xFE00707F, 0x40005013⟩, immediate_rows (by simp [opcodeRowsImmediate]), rfl,
    matches_funct7 (funct7Field_encodeI ..) (funct3Field_encodeI ..) (opcodeField_encodeI ..) rfl⟩
theorem auipc (rd : Reg) (imm20 : BitVec 20) : Statement (.auipc rd imm20) :=
  ⟨⟨"AUIPC", 0x0000007F, 0x00000017⟩, immediate_rows (by simp [opcodeRowsImmediate]), rfl,
    matches_opcode (opcodeField_encodeU ..) rfl⟩
theorem add (rd rs1 rs2 : Reg) : Statement (.add rd rs1 rs2) :=
  ⟨⟨"ADD", 0xFE00707F, 0x00000033⟩, register_rows (by simp [opcodeRowsRegister]), rfl,
    matches_funct7 (funct7Field_encodeR ..) (funct3Field_encodeR ..) (opcodeField_encodeR ..) rfl⟩
theorem sub (rd rs1 rs2 : Reg) : Statement (.sub rd rs1 rs2) :=
  ⟨⟨"SUB", 0xFE00707F, 0x40000033⟩, register_rows (by simp [opcodeRowsRegister]), rfl,
    matches_funct7 (funct7Field_encodeR ..) (funct3Field_encodeR ..) (opcodeField_encodeR ..) rfl⟩
theorem sll (rd rs1 rs2 : Reg) : Statement (.sll rd rs1 rs2) :=
  ⟨⟨"SLL", 0xFE00707F, 0x00001033⟩, register_rows (by simp [opcodeRowsRegister]), rfl,
    matches_funct7 (funct7Field_encodeR ..) (funct3Field_encodeR ..) (opcodeField_encodeR ..) rfl⟩
theorem slt (rd rs1 rs2 : Reg) : Statement (.slt rd rs1 rs2) :=
  ⟨⟨"SLT", 0xFE00707F, 0x00002033⟩, register_rows (by simp [opcodeRowsRegister]), rfl,
    matches_funct7 (funct7Field_encodeR ..) (funct3Field_encodeR ..) (opcodeField_encodeR ..) rfl⟩
theorem sltu (rd rs1 rs2 : Reg) : Statement (.sltu rd rs1 rs2) :=
  ⟨⟨"SLTU", 0xFE00707F, 0x00003033⟩, register_rows (by simp [opcodeRowsRegister]), rfl,
    matches_funct7 (funct7Field_encodeR ..) (funct3Field_encodeR ..) (opcodeField_encodeR ..) rfl⟩
theorem xor (rd rs1 rs2 : Reg) : Statement (.xor rd rs1 rs2) :=
  ⟨⟨"XOR", 0xFE00707F, 0x00004033⟩, register_rows (by simp [opcodeRowsRegister]), rfl,
    matches_funct7 (funct7Field_encodeR ..) (funct3Field_encodeR ..) (opcodeField_encodeR ..) rfl⟩
theorem srl (rd rs1 rs2 : Reg) : Statement (.srl rd rs1 rs2) :=
  ⟨⟨"SRL", 0xFE00707F, 0x00005033⟩, register_rows (by simp [opcodeRowsRegister]), rfl,
    matches_funct7 (funct7Field_encodeR ..) (funct3Field_encodeR ..) (opcodeField_encodeR ..) rfl⟩
theorem sra (rd rs1 rs2 : Reg) : Statement (.sra rd rs1 rs2) :=
  ⟨⟨"SRA", 0xFE00707F, 0x40005033⟩, register_rows (by simp [opcodeRowsRegister]), rfl,
    matches_funct7 (funct7Field_encodeR ..) (funct3Field_encodeR ..) (opcodeField_encodeR ..) rfl⟩
theorem or (rd rs1 rs2 : Reg) : Statement (.or rd rs1 rs2) :=
  ⟨⟨"OR", 0xFE00707F, 0x00006033⟩, register_rows (by simp [opcodeRowsRegister]), rfl,
    matches_funct7 (funct7Field_encodeR ..) (funct3Field_encodeR ..) (opcodeField_encodeR ..) rfl⟩
theorem and (rd rs1 rs2 : Reg) : Statement (.and rd rs1 rs2) :=
  ⟨⟨"AND", 0xFE00707F, 0x00007033⟩, register_rows (by simp [opcodeRowsRegister]), rfl,
    matches_funct7 (funct7Field_encodeR ..) (funct3Field_encodeR ..) (opcodeField_encodeR ..) rfl⟩
theorem lui (rd : Reg) (imm20 : BitVec 20) : Statement (.lui rd imm20) :=
  ⟨⟨"LUI", 0x0000007F, 0x00000037⟩, immediate_rows (by simp [opcodeRowsImmediate]), rfl,
    matches_opcode (opcodeField_encodeU ..) rfl⟩
theorem beq (rs1 rs2 : Reg) (imm : BitVec 13) : Statement (.beq rs1 rs2 imm) :=
  ⟨⟨"BEQ", 0x0000707F, 0x00000063⟩, control_rows (by simp [opcodeRowsControl]), rfl,
    matches_funct3 (funct3Field_encodeB ..) (opcodeField_encodeB ..) rfl⟩
theorem bne (rs1 rs2 : Reg) (imm : BitVec 13) : Statement (.bne rs1 rs2 imm) :=
  ⟨⟨"BNE", 0x0000707F, 0x00001063⟩, control_rows (by simp [opcodeRowsControl]), rfl,
    matches_funct3 (funct3Field_encodeB ..) (opcodeField_encodeB ..) rfl⟩
theorem blt (rs1 rs2 : Reg) (imm : BitVec 13) : Statement (.blt rs1 rs2 imm) :=
  ⟨⟨"BLT", 0x0000707F, 0x00004063⟩, control_rows (by simp [opcodeRowsControl]), rfl,
    matches_funct3 (funct3Field_encodeB ..) (opcodeField_encodeB ..) rfl⟩
theorem bge (rs1 rs2 : Reg) (imm : BitVec 13) : Statement (.bge rs1 rs2 imm) :=
  ⟨⟨"BGE", 0x0000707F, 0x00005063⟩, control_rows (by simp [opcodeRowsControl]), rfl,
    matches_funct3 (funct3Field_encodeB ..) (opcodeField_encodeB ..) rfl⟩
theorem bltu (rs1 rs2 : Reg) (imm : BitVec 13) : Statement (.bltu rs1 rs2 imm) :=
  ⟨⟨"BLTU", 0x0000707F, 0x00006063⟩, control_rows (by simp [opcodeRowsControl]), rfl,
    matches_funct3 (funct3Field_encodeB ..) (opcodeField_encodeB ..) rfl⟩
theorem bgeu (rs1 rs2 : Reg) (imm : BitVec 13) : Statement (.bgeu rs1 rs2 imm) :=
  ⟨⟨"BGEU", 0x0000707F, 0x00007063⟩, control_rows (by simp [opcodeRowsControl]), rfl,
    matches_funct3 (funct3Field_encodeB ..) (opcodeField_encodeB ..) rfl⟩
theorem jalr (rd rs1 : Reg) (imm : BitVec 12) : Statement (.jalr rd rs1 imm) :=
  ⟨⟨"JALR", 0x0000707F, 0x00000067⟩, control_rows (by simp [opcodeRowsControl]), rfl,
    matches_funct3 (funct3Field_encodeI ..) (opcodeField_encodeI ..) rfl⟩
theorem jal (rd : Reg) (imm : BitVec 21) : Statement (.jal rd imm) :=
  ⟨⟨"JAL", 0x0000007F, 0x0000006F⟩, control_rows (by simp [opcodeRowsControl]), rfl,
    matches_opcode (opcodeField_encodeJ ..) rfl⟩
theorem csrrw (rd : Reg) (csr : CsrAddr) (rs1 : Reg) : Statement (.csrrw rd csr rs1) :=
  ⟨⟨"CSRRW", 0x0000707F, 0x00001073⟩, system_rows (by simp [opcodeRowsSystem]), rfl,
    matches_funct3 (funct3Field_encodeI ..) (opcodeField_encodeI ..) rfl⟩
theorem csrrs (rd : Reg) (csr : CsrAddr) (rs1 : Reg) : Statement (.csrrs rd csr rs1) :=
  ⟨⟨"CSRRS", 0x0000707F, 0x00002073⟩, system_rows (by simp [opcodeRowsSystem]), rfl,
    matches_funct3 (funct3Field_encodeI ..) (opcodeField_encodeI ..) rfl⟩
theorem csrrc (rd : Reg) (csr : CsrAddr) (rs1 : Reg) : Statement (.csrrc rd csr rs1) :=
  ⟨⟨"CSRRC", 0x0000707F, 0x00003073⟩, system_rows (by simp [opcodeRowsSystem]), rfl,
    matches_funct3 (funct3Field_encodeI ..) (opcodeField_encodeI ..) rfl⟩
theorem csrrwi (rd : Reg) (csr : CsrAddr) (zimm : BitVec 5) : Statement (.csrrwi rd csr zimm) :=
  ⟨⟨"CSRRWI", 0x0000707F, 0x00005073⟩, system_rows (by simp [opcodeRowsSystem]), rfl,
    matches_funct3 (funct3Field_encodeI ..) (opcodeField_encodeI ..) rfl⟩
theorem csrrsi (rd : Reg) (csr : CsrAddr) (zimm : BitVec 5) : Statement (.csrrsi rd csr zimm) :=
  ⟨⟨"CSRRSI", 0x0000707F, 0x00006073⟩, system_rows (by simp [opcodeRowsSystem]), rfl,
    matches_funct3 (funct3Field_encodeI ..) (opcodeField_encodeI ..) rfl⟩
theorem csrrci (rd : Reg) (csr : CsrAddr) (zimm : BitVec 5) : Statement (.csrrci rd csr zimm) :=
  ⟨⟨"CSRRCI", 0x0000707F, 0x00007073⟩, system_rows (by simp [opcodeRowsSystem]), rfl,
    matches_funct3 (funct3Field_encodeI ..) (opcodeField_encodeI ..) rfl⟩
theorem ecall : Statement (.ecall) :=
  ⟨⟨"ECALL", 0xFFFFFFFF, 0x00000073⟩, system_rows (by simp [opcodeRowsSystem]), rfl,
    by decide⟩
theorem ebreak : Statement (.ebreak) :=
  ⟨⟨"EBREAK", 0xFFFFFFFF, 0x00100073⟩, system_rows (by simp [opcodeRowsSystem]), rfl,
    by decide⟩
theorem uret : Statement (.uret) :=
  ⟨⟨"URET", 0xFFFFFFFF, 0x00200073⟩, system_rows (by simp [opcodeRowsSystem]), rfl,
    by decide⟩
theorem sret : Statement (.sret) :=
  ⟨⟨"SRET", 0xFFFFFFFF, 0x10200073⟩, system_rows (by simp [opcodeRowsSystem]), rfl,
    by decide⟩
theorem mret : Statement (.mret) :=
  ⟨⟨"MRET", 0xFFFFFFFF, 0x30200073⟩, system_rows (by simp [opcodeRowsSystem]), rfl,
    by decide⟩
theorem wfi : Statement (.wfi) :=
  ⟨⟨"WFI", 0xFFFFFFFF, 0x10500073⟩, system_rows (by simp [opcodeRowsSystem]), rfl,
    by decide⟩
theorem sfenceVma (rs1 rs2 : Reg) : Statement (.sfenceVma rs1 rs2) :=
  ⟨⟨"SFENCE.VMA", 0xFE007FFF, 0x12000073⟩, system_rows (by simp [opcodeRowsSystem]), rfl,
    by
    show _ &&& 0xFE007FFF#32 = _
    rw [and_mask_sfence]
    simp only [encode, funct7Field_encodeR, funct3Field_encodeR, rdField_encodeR, opcodeField_encodeR]
    rfl⟩

end Sys2Proof.Laws.EncodesIntoRow
end

