-- ==== Sys2Proof/Laws/Results.lean ====
section
/-! SUPPORT. The shared operations in the terms claims use: what each one leaves changed and unchanged. -/

namespace Sys2Proof.Machine

variable {s : State}

theorem registerResult_setX {rd : Reg} {v w : Word} (h : v = w) : RegisterResult s (s.setX rd v) rd w := by
  subst h
  exact ⟨fun r => State.x_setX s rd v r, rfl, fun _ => rfl, fun _ => rfl, ⟨rfl, rfl, rfl⟩, ⟨rfl, rfl, rfl⟩⟩

theorem pcResult_self : PcResult s s s.pc :=
  ⟨rfl, fun _ => rfl, fun _ => rfl, fun _ => rfl, ⟨rfl, rfl, rfl⟩, ⟨rfl, rfl, rfl⟩⟩

theorem pcResult_setPc {t u : Word} (h : t = u) : PcResult s (s.setPc t) u := by
  subst h
  exact ⟨rfl, fun _ => rfl, fun _ => rfl, fun _ => rfl, ⟨rfl, rfl, rfl⟩, ⟨rfl, rfl, rfl⟩⟩

theorem linkResult_setX_setPc {rd : Reg} {l t u : Word} (h : t = u) :
    LinkResult s ((s.setX rd l).setPc t) rd l u := by
  subst h
  exact ⟨fun r => State.x_setX s rd l r, rfl, fun _ => rfl, fun _ => rfl, ⟨rfl, rfl, rfl⟩, ⟨rfl, rfl, rfl⟩⟩

theorem csrResult_csrWrite_setX (rd : Reg) (a : CsrAddr) (v : Word) :
    CsrResult s ((s.csrWrite a v).setX rd (s.csrRead a)) rd a v := by
  refine ⟨fun r => ?_, fun b => rfl, by simp, fun c => ?_, ⟨by simp, by simp, by simp⟩, ⟨by simp, by simp, by simp⟩⟩
  · rw [State.x_setX, State.x_csrWrite]
  · exact State.read8_csrWrite s a v c

/-- The Supervisor branch of trap entry (60_exceptions.md R411). -/
theorem supervisorTrap_enterSupervisor (s : State) (c : Cause) (epc : Word) :
    SupervisorTrap s (s.enterSupervisor c epc) c.value c.code epc (s.mode != .user) where
  mode := rfl
  prevMode := rfl
  pc := rfl
  sepc := by rw [State.csrRaw_enterSupervisor]; rfl
  scause := by rw [State.csrRaw_enterSupervisor]; rfl
  stval := by rw [State.csrRaw_enterSupervisor]; rfl
  spie := by rw [State.csrRaw_enterSupervisor, if_pos rfl, getLsbD_mstatusEnterSupervisor]; rfl
  sie := by rw [State.csrRaw_enterSupervisor, if_pos rfl, getLsbD_mstatusEnterSupervisor]; rfl
  spp := by rw [State.csrRaw_enterSupervisor, if_pos rfl, getLsbD_mstatusEnterSupervisor]; rfl
  otherBits := by
    intro k h1 h5 h8
    rw [State.csrRaw_enterSupervisor, if_pos rfl, getLsbD_mstatusEnterSupervisor]
    simp [h1, h5, h8]
  otherCsrs := by
    intro a h1 h2 h3 h4
    rw [State.csrRaw_enterSupervisor]
    simp [h1, h2, h3, h4]
  registers := fun _ => rfl
  memory := fun _ => rfl
  status := rfl
  inputs := ⟨rfl, rfl, rfl⟩

/-- The Machine branch of trap entry (60_exceptions.md R411). -/
theorem machineTrap_enterMachine (s : State) (c : Cause) (epc : Word) (mpp : BitVec 2) :
    MachineTrap s (s.enterMachine c epc mpp) c.value c.code epc mpp where
  mode := rfl
  prevMode := rfl
  pc := rfl
  mepc := by rw [State.csrRaw_enterMachine]; rfl
  mcause := by rw [State.csrRaw_enterMachine]; rfl
  mtval := by rw [State.csrRaw_enterMachine]; rfl
  mpie := by
    rw [State.csrRaw_enterMachine, if_pos rfl, getLsbD_mstatusEnterMachine _ _ _ (by decide) (by decide)]; rfl
  mie := by
    rw [State.csrRaw_enterMachine, if_pos rfl, getLsbD_mstatusEnterMachine _ _ _ (by decide) (by decide)]; rfl
  mpp := by rw [State.csrRaw_enterMachine, if_pos rfl]; exact mppField_mstatusEnterMachine _ _
  otherBits := by
    intro k h3 h7 h11 h12
    rw [State.csrRaw_enterMachine, if_pos rfl, getLsbD_mstatusEnterMachine _ _ _ h11 h12]
    simp [h3, h7]
  otherCsrs := by
    intro a h1 h2 h3 h4
    rw [State.csrRaw_enterMachine]
    simp [h1, h2, h3, h4]
  registers := fun _ => rfl
  memory := fun _ => rfl
  status := rfl
  inputs := ⟨rfl, rfl, rfl⟩

/-- Trap entry leaves the registers, the memory, the parameter and the inputs alone. -/
theorem trapEntry_keeps {c : Cause} {epc : Word} {t : State} (h : trapEntry c epc s = .next t) :
    t.regs = s.regs ∧ t.mem = s.mem ∧ t.memSize = s.memSize ∧ t.irqInputs = s.irqInputs ∧
      (t.mode = .supervisor ∨ t.mode = .machine) := by
  rcases trapEntry_next h with ⟨_, rfl⟩ | ⟨_, _, _, rfl⟩
  · exact ⟨rfl, rfl, rfl, rfl, .inl rfl⟩
  · exact ⟨rfl, rfl, rfl, rfl, .inr rfl⟩

/-- Trap entry writes no CSR but the seven that hold a trap's status, cause and addresses. -/
theorem csrRaw_of_trapEntry {c : Cause} {epc : Word} {t : State} (h : trapEntry c epc s = .next t) (a : CsrAddr)
    (ha : a ∉ [csrSepc, csrScause, csrStval, csrMstatus, csrMepc, csrMcause, csrMtval]) :
    t.csrRaw a = s.csrRaw a := by
  simp only [List.mem_cons, List.not_mem_nil, or_false, not_or] at ha
  obtain ⟨h1, h2, h3, h4, h5, h6, h7⟩ := ha
  rcases trapEntry_next h with ⟨_, rfl⟩ | ⟨_, _, _, rfl⟩
  · rw [State.csrRaw_enterSupervisor, if_neg h4, if_neg h3, if_neg h2, if_neg h1]
  · rw [State.csrRaw_enterMachine, if_neg h4, if_neg h7, if_neg h6, if_neg h5]

/-- Trap entry stops only in Debug mode. -/
theorem mode_of_trapEntry_fault {c : Cause} {epc : Word} {f : Fault} (h : trapEntry c epc s = .fault f) :
    s.mode = .debug := by
  unfold trapEntry at h
  split at h
  · cases h
  · split at h
    · cases h
    · next hn => revert hn; cases s.mode <;> simp [Mode.enc]

end Sys2Proof.Machine
end

