-- ==== Sys2Proof/Laws/Step.lean ====
section
/-! SUPPORT. What a step can do, said once. -/

namespace Sys2Proof.Machine

/-- A running core that takes no interrupt executes what it fetches. -/
theorem step_of_fetch {s : State} (hr : s.status = .run) (hd : s.pollIrq.deliverable = none) :
    step s = executeNext s.pollIrq := by
  simp [step, hr, runningStep, hd, timerTick]

theorem step_of_interrupt {s : State} {i : Interrupt} (hr : s.status = .run)
    (hd : s.pollIrq.deliverable = some i) : step s = takeInterrupt i s.pollIrq := by
  simp [step, hr, runningStep, hd]

theorem step_of_halted {s : State} (h : s.status ≠ .run) : step s = .next s := by
  unfold step
  split
  · next hr => exact absurd hr h
  · rfl
  · rfl

/-- Everything a step can do when it answers a next state (60_exceptions.md R400, R429). -/
theorem step_next {s t : State} (h : step s = .next t) :
    (s.status ≠ .run ∧ t = s) ∨
    (s.status = .run ∧ ∃ i, s.pollIrq.deliverable = some i ∧ takeInterrupt i s.pollIrq = .next t) ∨
    (s.status = .run ∧ s.pollIrq.deliverable = none ∧
      ((∃ i, decodeWord s.fetchWord = .ok i ∧ exec i s.pollIrq.advance = .next t) ∨
       (∃ e, decodeWord s.fetchWord = .error e ∧ raise .illegalInstruction s.pollIrq.advance = .next t))) := by
  by_cases hr : s.status = .run
  · cases hd : s.pollIrq.deliverable with
    | some i =>
      rw [step_of_interrupt hr hd] at h
      exact .inr (.inl ⟨hr, i, rfl, h⟩)
    | none =>
      rw [step_of_fetch hr hd] at h
      refine .inr (.inr ⟨hr, rfl, ?_⟩)
      unfold executeNext at h
      rw [State.fetchWord_pollIrq] at h
      split at h
      · next i hi => exact .inl ⟨i, hi, h⟩
      · next e he => exact .inr ⟨e, he, h⟩
  · rw [step_of_halted hr] at h
    cases h
    exact .inl ⟨hr, rfl⟩

end Sys2Proof.Machine
end

