-- ==== Sys2Proof/Machine/BankHelpers.lean ====
section
/-! DEFINITION. The source's bit-granular helpers of the CSR bank (spec/44_csr.md R341; 93_implementation_defined.md
I17), with their guard as the source has it. They are internal conveniences: no other definition uses them. -/

namespace Sys2Proof.Machine

/-- `read_bit`: absent when the index is greater than 31. -/
def bankReadBit (v : Word) (i : Nat) : Option Bool := if i > 31 then none else some (v.getLsbD i)

/-- `write_bit`: nothing when the index is greater than 31 or the value is neither 0 nor 1. -/
def bankWriteBit (v : Word) (i value : Nat) : Word :=
  if i > 31 ∨ value > 1 then v else setBit v i (value == 1)

/-- The guard of the field helpers, `start + count > 31`: it also turns away fields that end at bit 31. -/
def bankFieldRejected (start count : Nat) : Bool := decide (start + count > 31)

/-- The mask of `count` bits from `start`. -/
def fieldMask (start count : Nat) : Word := BitVec.ofNat 32 (2 ^ count - 1) <<< start

/-- `read_bits(start, count)`: absent when the guard turns it away. -/
def bankReadBits (v : Word) (start count : Nat) : Option Word :=
  if bankFieldRejected start count then none else some ((v &&& fieldMask start count) >>> start)

/-- `write_bits(start, count, value)`: nothing when the guard turns it away. A value wider than the field is cut
to it (log 18). -/
def bankWriteBits (v : Word) (start count : Nat) (value : Word) : Word :=
  if bankFieldRejected start count then v
  else (v &&& ~~~fieldMask start count) ||| ((value <<< start) &&& fieldMask start count)

end Sys2Proof.Machine
end

