-- ==== Sys2Proof/Tests/Slice0.lean ====
section
/-! SUPPORT. Tests: ill-formed terms are refused, words written out from spec/30_encoding.md R142 to R148 decode to
their instructions, and single steps give the results of spec/95_test_vectors.md (its row's id stands in each test's
comment). Then a witness for the hypotheses of every obligation that has some. -/

namespace Sys2Proof.Tests

open Sys2Proof Sys2Proof.Machine

/-! ### Helpers -/

/-- The start of the vectors of spec/95_test_vectors.md: the reset state with pc = 0x1000. -/
def start : State := { State.reset with pc := 0x1000#32 }

/-- The state after one step that runs the word. -/
def after (w : Nat) (s : State) : Option State := nextState (step (s.withFetchWord 32 w))

/-- One register and the pc after one step. -/
def regPc (r : Reg) (w : Nat) (s : State) : Option (Word × Word) := (after w s).map fun t => (t.x r, t.pc)

/-- One CSR, one register and the pc after one step. -/
def csrRegPc (a : CsrAddr) (r : Reg) (w : Nat) (s : State) : Option (Word × Word × Word) :=
  (after w s).map fun t => (t.csrRaw a, t.x r, t.pc)

/-- The mode, the pc, mstatus, mepc and mcause after one step. -/
def machineView (w : Nat) (s : State) : Option (Mode × Word × Word × Word × Word) :=
  (after w s).map fun t => (t.mode, t.pc, t.csrRaw csrMstatus, t.csrRaw csrMepc, t.csrRaw csrMcause)

/-- The mode, the pc, mstatus, sepc and scause after one step. -/
def supervisorView (w : Nat) (s : State) : Option (Mode × Word × Word × Word × Word) :=
  (after w s).map fun t => (t.mode, t.pc, t.csrRaw csrMstatus, t.csrRaw csrSepc, t.csrRaw csrScause)

/-- The start in another mode. -/
def startIn (m : Mode) : State := { start with mode := m }

/-! ### WellFormed: an odd branch or jump offset has no encoding (30_encoding.md R143) -/

theorem test_wellFormed_refuses_odd_beq : (Instr.beq 1 2 7#13).wellFormed = false := by decide
theorem test_wellFormed_refuses_odd_bne : (Instr.bne 1 2 7#13).wellFormed = false := by decide
theorem test_wellFormed_refuses_odd_blt : (Instr.blt 1 2 7#13).wellFormed = false := by decide
theorem test_wellFormed_refuses_odd_bge : (Instr.bge 1 2 7#13).wellFormed = false := by decide
theorem test_wellFormed_refuses_odd_bltu : (Instr.bltu 1 2 7#13).wellFormed = false := by decide
theorem test_wellFormed_refuses_odd_bgeu : (Instr.bgeu 1 2 7#13).wellFormed = false := by decide
theorem test_wellFormed_refuses_odd_jal : (Instr.jal 1 0x10001#21).wellFormed = false := by decide
theorem test_wellFormed_accepts_even_jal : (Instr.jal 1 0x10002#21).wellFormed = true := by decide

/-! ### Decoding: a word of every row, its fields written out (30_encoding.md R141 to R148) -/

theorem test_decode_lb :
    decodeWord 0b111110000010_00110_000_01101_0000011#32 = .ok (.lb 13 6 0xF82#12) := by decide
theorem test_decode_lh :
    decodeWord 0b111110000010_00110_001_01101_0000011#32 = .ok (.lh 13 6 0xF82#12) := by decide
theorem test_decode_lw :
    decodeWord 0b111110000010_00110_010_01101_0000011#32 = .ok (.lw 13 6 0xF82#12) := by decide
theorem test_decode_lbu :
    decodeWord 0b111110000010_00110_100_01101_0000011#32 = .ok (.lbu 13 6 0xF82#12) := by decide
theorem test_decode_lhu :
    decodeWord 0b111110000010_00110_101_01101_0000011#32 = .ok (.lhu 13 6 0xF82#12) := by decide
theorem test_decode_sb :
    decodeWord 0b1111100_00111_00110_000_00010_0100011#32 = .ok (.sb 6 7 0xF82#12) := by decide
theorem test_decode_sh :
    decodeWord 0b1111100_00111_00110_001_00010_0100011#32 = .ok (.sh 6 7 0xF82#12) := by decide
theorem test_decode_sw :
    decodeWord 0b1111100_00111_00110_010_00010_0100011#32 = .ok (.sw 6 7 0xF82#12) := by decide
theorem test_decode_fence :
    decodeWord 0b1000_0011_0001_00110_000_01101_0001111#32 = .ok (.fence 8#4 3#4 1#4 6 13) := by decide
theorem test_decode_fenceI :
    decodeWord 0b100000000001_00110_001_01101_0001111#32 = .ok (.fenceI 0x801#12 6 13) := by decide
theorem test_decode_addi :
    decodeWord 0b100000000001_00110_000_01101_0010011#32 = .ok (.addi 13 6 0x801#12) := by decide
theorem test_decode_slti :
    decodeWord 0b100000000001_00110_010_01101_0010011#32 = .ok (.slti 13 6 0x801#12) := by decide
theorem test_decode_sltiu :
    decodeWord 0b100000000001_00110_011_01101_0010011#32 = .ok (.sltiu 13 6 0x801#12) := by decide
theorem test_decode_xori :
    decodeWord 0b100000000001_00110_100_01101_0010011#32 = .ok (.xori 13 6 0x801#12) := by decide
theorem test_decode_ori :
    decodeWord 0b100000000001_00110_110_01101_0010011#32 = .ok (.ori 13 6 0x801#12) := by decide
theorem test_decode_andi :
    decodeWord 0b100000000001_00110_111_01101_0010011#32 = .ok (.andi 13 6 0x801#12) := by decide
theorem test_decode_slli :
    decodeWord 0b0000000_11110_00110_001_01101_0010011#32 = .ok (.slli 13 6 30#5) := by decide
theorem test_decode_srli :
    decodeWord 0b0000000_11110_00110_101_01101_0010011#32 = .ok (.srli 13 6 30#5) := by decide
theorem test_decode_srai :
    decodeWord 0b0100000_11110_00110_101_01101_0010011#32 = .ok (.srai 13 6 30#5) := by decide
theorem test_decode_auipc :
    decodeWord 0b10000000000000000011_01101_0010111#32 = .ok (.auipc 13 0x80003#20) := by decide
theorem test_decode_add :
    decodeWord 0b0000000_00111_00110_000_01101_0110011#32 = .ok (.add 13 6 7) := by decide
theorem test_decode_sub :
    decodeWord 0b0100000_00111_00110_000_01101_0110011#32 = .ok (.sub 13 6 7) := by decide
theorem test_decode_sll :
    decodeWord 0b0000000_00111_00110_001_01101_0110011#32 = .ok (.sll 13 6 7) := by decide
theorem test_decode_slt :
    decodeWord 0b0000000_00111_00110_010_01101_0110011#32 = .ok (.slt 13 6 7) := by decide
theorem test_decode_sltu :
    decodeWord 0b0000000_00111_00110_011_01101_0110011#32 = .ok (.sltu 13 6 7) := by decide
theorem test_decode_xor :
    decodeWord 0b0000000_00111_00110_100_01101_0110011#32 = .ok (.xor 13 6 7) := by decide
theorem test_decode_srl :
    decodeWord 0b0000000_00111_00110_101_01101_0110011#32 = .ok (.srl 13 6 7) := by decide
theorem test_decode_sra :
    decodeWord 0b0100000_00111_00110_101_01101_0110011#32 = .ok (.sra 13 6 7) := by decide
theorem test_decode_or :
    decodeWord 0b0000000_00111_00110_110_01101_0110011#32 = .ok (.or 13 6 7) := by decide
theorem test_decode_and :
    decodeWord 0b0000000_00111_00110_111_01101_0110011#32 = .ok (.and 13 6 7) := by decide
theorem test_decode_lui :
    decodeWord 0b10000000000000000011_01101_0110111#32 = .ok (.lui 13 0x80003#20) := by decide
theorem test_decode_beq :
    decodeWord 0b0000000_00111_00110_000_00001_1100011#32 = .ok (.beq 6 7 0x800#13) := by decide
theorem test_decode_bne :
    decodeWord 0b1000000_00111_00110_001_00000_1100011#32 = .ok (.bne 6 7 0x1000#13) := by decide
theorem test_decode_blt :
    decodeWord 0b0100000_00111_00110_100_00000_1100011#32 = .ok (.blt 6 7 0x400#13) := by decide
theorem test_decode_bge :
    decodeWord 0b0000001_00111_00110_101_00000_1100011#32 = .ok (.bge 6 7 0x20#13) := by decide
theorem test_decode_bltu :
    decodeWord 0b0000000_00111_00110_110_11110_1100011#32 = .ok (.bltu 6 7 0x1e#13) := by decide
theorem test_decode_bgeu :
    decodeWord 0b1111111_00111_00110_111_11101_1100011#32 = .ok (.bgeu 6 7 0x1ffc#13) := by decide
theorem test_decode_jalr :
    decodeWord 0b100000000001_00110_000_01101_1100111#32 = .ok (.jalr 13 6 0x801#12) := by decide
theorem test_decode_jal :
    decodeWord 0b10000000001100000100_01101_1101111#32 = .ok (.jal 13 0x104802#21) := by decide
theorem test_decode_csrrw :
    decodeWord 0b001100000101_00110_001_01101_1110011#32 = .ok (.csrrw 13 0x305#12 6) := by decide
theorem test_decode_csrrs :
    decodeWord 0b001100000101_00110_010_01101_1110011#32 = .ok (.csrrs 13 0x305#12 6) := by decide
theorem test_decode_csrrc :
    decodeWord 0b001100000101_00110_011_01101_1110011#32 = .ok (.csrrc 13 0x305#12 6) := by decide
theorem test_decode_csrrwi :
    decodeWord 0b001100000101_10001_101_01101_1110011#32 = .ok (.csrrwi 13 0x305#12 17#5) := by decide
theorem test_decode_csrrsi :
    decodeWord 0b001100000101_10001_110_01101_1110011#32 = .ok (.csrrsi 13 0x305#12 17#5) := by decide
theorem test_decode_csrrci :
    decodeWord 0b001100000101_10001_111_01101_1110011#32 = .ok (.csrrci 13 0x305#12 17#5) := by decide
theorem test_decode_ecall :
    decodeWord 0b000000000000_00000_000_00000_1110011#32 = .ok (.ecall) := by decide
theorem test_decode_ebreak :
    decodeWord 0b000000000001_00000_000_00000_1110011#32 = .ok (.ebreak) := by decide
theorem test_decode_uret :
    decodeWord 0b000000000010_00000_000_00000_1110011#32 = .ok (.uret) := by decide
theorem test_decode_sret :
    decodeWord 0b000100000010_00000_000_00000_1110011#32 = .ok (.sret) := by decide
theorem test_decode_mret :
    decodeWord 0b001100000010_00000_000_00000_1110011#32 = .ok (.mret) := by decide
theorem test_decode_wfi :
    decodeWord 0b000100000101_00000_000_00000_1110011#32 = .ok (.wfi) := by decide
theorem test_decode_sfenceVma :
    decodeWord 0b0001001_00111_00110_000_00000_1110011#32 = .ok (.sfenceVma 6 7) := by decide

/-! ### Words that are no instruction are refused by name (30_encoding.md R149) -/

/-- VF3. -/
theorem test_reject_misc_mem_funct3 : decodeWord 0x0000200F#32 = .error .funct3 := by decide
/-- VI14. -/
theorem test_reject_slli_funct7 : decodeWord 0x40031293#32 = .error .funct7 := by decide
/-- R243: the encodings of multiplication. -/
theorem test_reject_mul : decodeWord 0x027302B3#32 = .error .funct7 := by decide
/-- VE21. -/
theorem test_reject_sfenceVma_rd : decodeWord 0x120000F3#32 = .error .systemWord := by decide
/-- VE22. -/
theorem test_reject_ecall_rd : decodeWord 0x000000F3#32 = .error .systemWord := by decide
/-- VE8. -/
theorem test_reject_all_ones : decodeWord 0xFFFFFFFF#32 = .error .opcode := by decide
theorem test_reject_short : decodeBytes [0x13#8, 0x00#8, 0x00#8] = .error .truncated := by decide
/-- The bytes of `addi x5, x6, -1` as memory holds them, and a byte after them. -/
theorem test_decodeBytes_order :
    decodeBytes [0x93#8, 0x02#8, 0xF3#8, 0xFF#8, 0xAA#8] = .ok (.addi 5 6 0xFFF#12, [0xAA#8]) := by decide
theorem test_tableWord : decodeTableWord 32 0x34001073 = some (.csrrw 0 0x340#12 0) := by decide

/-! ### Loads and stores -/

/-- `word[0x2000] = 0x80FF7F81`, `x6 = 0x2000`. -/
def loads : State := (start.setX 6 0x2000#32).write32 0x2000#32 0x80FF7F81#32

/-- `x6 = 0x2000`, `x7 = 0x12345678`. -/
def stores : State := (start.setX 6 0x2000#32).setX 7 0x12345678#32

/-- A word of memory after one step. -/
def wordAt (a : Word) (w : Nat) (s : State) : Option Word := (after w s).map fun t => t.read32 a

/-- VL1. -/
theorem test_lb_signed :
    regPc 5 0x00030283 loads = some (0xFFFFFF81#32, 0x1004#32) := by decide
/-- VL10: the address wraps to 0xFFFFFFFF. -/
theorem test_lb_wraps_past_memory :
    regPc 5 0xFFF30283 (start.setX 5 0x55#32) = some (0#32, 0x1004#32) := by decide
/-- VL3. -/
theorem test_lh_signed :
    regPc 5 0x00231283 loads = some (0xFFFF80FF#32, 0x1004#32) := by decide
/-- VL7. -/
theorem test_lh_misaligned :
    regPc 5 0x00131283 loads = some (0x00007F81#32, 0x1004#32) := by decide
/-- VL12. -/
theorem test_lw_base_is_destination :
    regPc 6 0x00032303 loads = some (0x80FF7F81#32, 0x1004#32) := by decide
/-- VL8. -/
theorem test_lw_misaligned :
    regPc 5 0x00232283 loads = some (0x80FF7F81#32, 0x1004#32) := by decide
/-- VL2. -/
theorem test_lbu :
    regPc 5 0x00034283 loads = some (0x00000081#32, 0x1004#32) := by decide
/-- VL4. -/
theorem test_lhu :
    regPc 5 0x00235283 loads = some (0x000080FF#32, 0x1004#32) := by decide
/-- VS1. -/
theorem test_sb :
    wordAt 0x2000#32 0x007300A3 stores = some (0x00007800#32) := by decide
/-- VS7. -/
theorem test_sb_zero :
    wordAt 0x2000#32 0x000301A3 loads = some (0x00FF7F81#32) := by decide
/-- VS2. -/
theorem test_sh :
    wordAt 0x2000#32 0x00731123 stores = some (0x56780000#32) := by decide
/-- VS4. -/
theorem test_sh_misaligned :
    wordAt 0x2000#32 0x007311A3 stores = some (0x56780000#32) := by decide
/-- VS3. -/
theorem test_sw_bytes :
    ((after 0x00732423 stores).map fun t => (t.read8 0x2008#32, t.read8 0x200B#32)) =
      some (0x78#8, 0x12#8) := by decide
/-- VS6. -/
theorem test_sw_above_memory :
    ((after 0x00732023 (stores.setX 6 0x800000#32)).map fun t => (t.read32 0x800000#32, t.pc)) =
      some (0#32, 0x1004#32) := by decide

/-! ### Fences -/

/-- VF1. -/
theorem test_fence :
    regPc 5 0x0FF0000F start = some (0#32, 0x1004#32) := by decide
/-- R230: FENCE.TSO with a nonzero rd and rs1. -/
theorem test_fence_writes_no_rd :
    regPc 5 0x8330028F ((start.setX 5 7#32).setX 6 9#32) = some (7#32, 0x1004#32) := by decide
/-- VF2. -/
theorem test_fenceI :
    regPc 5 0x0000100F start = some (0#32, 0x1004#32) := by decide

/-! ### Integer computation -/

/-- The start with x6 and x7. -/
def ops (a b : Word) : State := (start.setX 6 a).setX 7 b

/-- VI2. -/
theorem test_addi_wraps :
    regPc 5 0x00130293 (ops 0x7FFFFFFF#32 0x00000000#32) = some (0x80000000#32, 0x1004#32) := by decide
/-- VI3. -/
theorem test_slti :
    regPc 5 0xFFF32293 (ops 0x80000000#32 0x00000000#32) = some (0x00000001#32, 0x1004#32) := by decide
/-- VI4. -/
theorem test_sltiu :
    regPc 5 0xFFF33293 (ops 0xFFFFFFFE#32 0x00000000#32) = some (0x00000001#32, 0x1004#32) := by decide
/-- VI6. -/
theorem test_xori :
    regPc 5 0xFFF34293 (ops 0x0F0F0F0F#32 0x00000000#32) = some (0xF0F0F0F0#32, 0x1004#32) := by decide
/-- VI7. -/
theorem test_ori :
    regPc 5 0x0F036293 (ops 0x12345678#32 0x00000000#32) = some (0x123456F8#32, 0x1004#32) := by decide
/-- VI8. -/
theorem test_andi :
    regPc 5 0xFF037293 (ops 0x12345678#32 0x00000000#32) = some (0x12345670#32, 0x1004#32) := by decide
/-- VI9. -/
theorem test_slli :
    regPc 5 0x01F31293 (ops 0x00000003#32 0x00000000#32) = some (0x80000000#32, 0x1004#32) := by decide
/-- VI10. -/
theorem test_srli :
    regPc 5 0x01F35293 (ops 0x80000000#32 0x00000000#32) = some (0x00000001#32, 0x1004#32) := by decide
/-- VI12. -/
theorem test_srai :
    regPc 5 0x40435293 (ops 0x80000000#32 0x00000000#32) = some (0xF8000000#32, 0x1004#32) := by decide
/-- VI15. -/
theorem test_auipc :
    regPc 5 0x12345297 (ops 0x00000000#32 0x00000000#32) = some (0x12346000#32, 0x1004#32) := by decide
/-- VI16. -/
theorem test_auipc_wraps :
    regPc 5 0xFFFFF297 (ops 0x00000000#32 0x00000000#32) = some (0x00000000#32, 0x1004#32) := by decide
/-- VI17. -/
theorem test_lui :
    regPc 5 0x123452B7 (ops 0x00000000#32 0x00000000#32) = some (0x12345000#32, 0x1004#32) := by decide
/-- VI18. -/
theorem test_add_wraps :
    regPc 5 0x007302B3 (ops 0xFFFFFFFF#32 0x00000001#32) = some (0x00000000#32, 0x1004#32) := by decide
/-- VI20. -/
theorem test_sub :
    regPc 5 0x407302B3 (ops 0x80000000#32 0x00000001#32) = some (0x7FFFFFFF#32, 0x1004#32) := by decide
/-- VI21. -/
theorem test_sll :
    regPc 5 0x007312B3 (ops 0x00000001#32 0x00000021#32) = some (0x00000002#32, 0x1004#32) := by decide
/-- VI22. -/
theorem test_srl :
    regPc 5 0x007352B3 (ops 0x80000000#32 0xFFFFFFFF#32) = some (0x00000001#32, 0x1004#32) := by decide
/-- VI23. -/
theorem test_sra_by_32 :
    regPc 5 0x407352B3 (ops 0x80000000#32 0x00000020#32) = some (0x80000000#32, 0x1004#32) := by decide
/-- R261's example. -/
theorem test_sra :
    regPc 5 0x407352B3 (ops 0x80000000#32 0x0000001F#32) = some (0xFFFFFFFF#32, 0x1004#32) := by decide
/-- VI24. -/
theorem test_slt :
    regPc 5 0x007322B3 (ops 0x80000000#32 0x7FFFFFFF#32) = some (0x00000001#32, 0x1004#32) := by decide
/-- VI25. -/
theorem test_sltu :
    regPc 5 0x007332B3 (ops 0x80000000#32 0x7FFFFFFF#32) = some (0x00000000#32, 0x1004#32) := by decide
/-- VI27. -/
theorem test_xor :
    regPc 5 0x007342B3 (ops 0xFF00FF00#32 0x0FF00FF0#32) = some (0xF0F0F0F0#32, 0x1004#32) := by decide
/-- VI28. -/
theorem test_or :
    regPc 5 0x007362B3 (ops 0xFF00FF00#32 0x0FF00FF0#32) = some (0xFFF0FFF0#32, 0x1004#32) := by decide
/-- R263's example. -/
theorem test_and :
    regPc 5 0x007372B3 (ops 0x000000F0#32 0x0000003C#32) = some (0x00000030#32, 0x1004#32) := by decide
/-- W2. -/
theorem test_x0_discards :
    regPc 0 0x00500013 start = some (0#32, 0x1004#32) := by decide

/-! ### Control transfer -/

/-- VB1. -/
theorem test_beq_taken :
    ((after 0x00730463 (ops 7#32 7#32)).map State.pc) = some (0x00001008#32) := by decide
/-- VB3. -/
theorem test_bne :
    regPc 6 0xFE731EE3 { ops 1#32 0#32 with pc := 0x1008#32 } = some (1#32, 0x1004#32) := by decide
/-- VB4. -/
theorem test_blt :
    ((after 0x00734463 (ops 0xFFFFFFFF#32 0#32)).map State.pc) = some (0x00001008#32) := by decide
/-- VB5. -/
theorem test_bge :
    ((after 0x00735463 (ops 0xFFFFFFFF#32 0#32)).map State.pc) = some (0x00001004#32) := by decide
/-- VB8. -/
theorem test_bge_equal :
    ((after 0x00735463 (ops 0x80000000#32 0x80000000#32)).map State.pc) = some (0x00001008#32) := by decide
/-- VB6. -/
theorem test_bltu :
    ((after 0x00736463 (ops 0xFFFFFFFF#32 0#32)).map State.pc) = some (0x00001004#32) := by decide
/-- VB7. -/
theorem test_bgeu :
    ((after 0x00737463 (ops 0xFFFFFFFF#32 0#32)).map State.pc) = some (0x00001008#32) := by decide
/-- VB10. -/
theorem test_branch_wraps :
    ((after 0xFE000EE3 ({ start with pc := 0#32 })).map State.pc) = some (0xFFFFFFFC#32) := by decide
/-- VJ1. -/
theorem test_jal :
    regPc 1 0x100000EF start = some (0x1004#32, 0x1100#32) := by decide
/-- VJ2. -/
theorem test_jal_backwards :
    regPc 1 0xFF9FF06F { start with pc := 0x1008#32 } = some (0#32, 0x1000#32) := by decide
/-- VJ4. -/
theorem test_jalr_clears_bit_0 :
    regPc 1 0x004300E7 (start.setX 6 0x2001#32) = some (0x1004#32, 0x2004#32) := by decide
/-- VJ5. -/
theorem test_jalr_link_is_base :
    regPc 1 0x000080E7 (start.setX 1 0x3000#32) = some (0x1004#32, 0x3000#32) := by decide
/-- VJ8: a misaligned pc fetches the aligned word and advances by 4. -/
theorem test_fetch_misaligned :
    (nextState (step { start.write32 0x1000#32 0x00100293#32 with pc := 0x1002#32 })).map
      (fun t => (t.x 5, t.pc, t.pcInst)) = some (1#32, 0x1006#32, 0x1002#32) := by decide

/-! ### CSR access -/

/-- VC1. -/
theorem test_csrrw :
    csrRegPc csrMscratch 5 0x340312F3 ((start.setX 6 0x22#32).setCsrRaw csrMscratch 0x11#32) =
      some (0x22#32, 0x11#32, 0x1004#32) := by decide
/-- VC9. -/
theorem test_csrrw_sstatus :
    csrRegPc csrMstatus 5 0x100012F3 (start.setCsrRaw csrMstatus 0xFFFFFFFF#32) =
      some (0xFFF21EDD#32, 0x000DE122#32, 0x1004#32) := by decide
/-- VC2. -/
theorem test_csrrs :
    csrRegPc csrMstatus 5 0x300322F3 ((start.setX 6 8#32).setCsrRaw csrMstatus 0x1800#32) =
      some (0x1808#32, 0x1800#32, 0x1004#32) := by decide
/-- VC13. -/
theorem test_csrRead_sip_shows_delegated :
    ((start.setCsrRaw csrMip 0xAAA#32).setCsrRaw csrMideleg 0x22#32).csrRead csrSip = 0x22#32 := by decide
/-- VC3. -/
theorem test_csrrc :
    csrRegPc csrMstatus 5 0x300332F3 ((start.setX 6 8#32).setCsrRaw csrMstatus 0x1808#32) =
      some (0x1800#32, 0x1808#32, 0x1004#32) := by decide
/-- VC4. -/
theorem test_csrrwi :
    csrRegPc csrMscratch 5 0x3408D2F3 (start.setCsrRaw csrMscratch 0x22#32) =
      some (0x11#32, 0x22#32, 0x1004#32) := by decide
/-- VC5. -/
theorem test_csrrsi :
    csrRegPc csrMstatus 5 0x300462F3 start = some (8#32, 0#32, 0x1004#32) := by decide
/-- VC6. -/
theorem test_csrrci :
    csrRegPc csrMstatus 5 0x300472F3 (start.setCsrRaw csrMstatus 8#32) =
      some (0#32, 8#32, 0x1004#32) := by decide
/-- VC11. -/
theorem test_csrWrite_sie_delegated :
    ((start.setCsrRaw csrMideleg 0x222#32).csrWrite csrSie 0xFFFFFFFF#32).csrRaw csrMie = 0x222#32 := by decide
/-- VC12. -/
theorem test_csrWrite_sip_ssip :
    ((start.setCsrRaw csrMideleg 0x222#32).csrWrite csrSip 0xFFFFFFFF#32).csrRaw csrMip = 2#32 := by decide
/-- VC14. -/
theorem test_csrWrite_misa_constant : (start.csrWrite csrMisa 0#32).csrRead csrMisa = 0x40040100#32 := by decide
/-- VC18, VC19. -/
theorem test_csrAllowed_user :
    (startIn .user).csrAllowed 0xC00#12 = true ∧ (startIn .user).csrAllowed csrSstatus = false := by decide
/-- VC20. -/
theorem test_csr_privilege :
    machineView 0x300022F3 ((startIn .supervisor).setCsrRaw csrMtvec 0x8000#32) =
      some (.machine, 0x8000#32, 0x800#32, 0x1000#32, 2#32) := by decide

/-! ### Environment and privileged instructions -/

/-- VE5. -/
theorem test_ecall_delegated :
    supervisorView 0x00000073 (((startIn .supervisor).setCsrRaw csrStvec 0x9000#32).setCsrRaw csrMedeleg 0x200#32) =
      some (.supervisor, 0x9000#32, 0x100#32, 0x1000#32, 9#32) := by decide
/-- VE6. -/
theorem test_ecall_in_machine :
    machineView 0x00000073 ((start.setCsrRaw csrMtvec 0x8000#32).setCsrRaw csrMedeleg 0xFFFFFFFF#32) =
      some (.machine, 0x8000#32, 0x1800#32, 0x1000#32, 0xB#32) := by decide
/-- VE7. -/
theorem test_ebreak_vectored :
    machineView 0x00100073 (start.setCsrRaw csrMtvec 0x8001#32) =
      some (.machine, 0x800C#32, 0x1800#32, 0x1000#32, 3#32) := by decide
/-- VE8. -/
theorem test_illegal_vectored :
    machineView 0xFFFFFFFF (start.setCsrRaw csrMtvec 0x8001#32) =
      some (.machine, 0x8008#32, 0x1800#32, 0x1000#32, 2#32) := by decide
/-- VE9. -/
theorem test_sret :
    supervisorView 0x10200073 (((startIn .supervisor).setCsrRaw csrMstatus 0x20#32).setCsrRaw csrSepc 0x3000#32) =
      some (.user, 0x3000#32, 0x22#32, 0x3000#32, 0#32) := by decide
/-- VE11. -/
theorem test_sret_in_user :
    machineView 0x10200073 ((startIn .user).setCsrRaw csrMtvec 0x8000#32) =
      some (.machine, 0x8000#32, 0#32, 0x1000#32, 2#32) := by decide
/-- VE14. -/
theorem test_mret :
    machineView 0x30200073 ((start.setCsrRaw csrMstatus 0x880#32).setCsrRaw csrMepc 0x2000#32) =
      some (.supervisor, 0x2000#32, 0x88#32, 0x2000#32, 0#32) := by decide
/-- VE16: MPP = 2 (log 8). -/
theorem test_mret_invalid_mpp :
    step ((start.setCsrRaw csrMstatus 0x1000#32).withFetchWord 32 0x30200073) = .fault .mretInvalidMpp := rfl
/-- VE17. -/
theorem test_uret :
    ((after 0x00200073 start).map fun t => (t.pc, t.status)) =
      some (0x1000#32, .haltUnimplemented) := by decide
/-- VE19. -/
theorem test_wfi :
    regPc 5 0x10500073 start = some (0#32, 0x1004#32) := by decide
/-- VE20. -/
theorem test_sfenceVma :
    regPc 5 0x12000073 start = some (0#32, 0x1004#32) := by decide

/-! ### Interrupts -/

/-- mtvec = 0x8000 and MIE set. -/
def gateOpen : State := (start.setCsrRaw csrMtvec 0x8000#32).setCsrRaw csrMstatus 8#32

/-- VT1. -/
theorem test_interrupt_priority :
    ((after 0x00000013 ((gateOpen.setCsrRaw csrMie 0xAAA#32).setCsrRaw csrMip 0xAAA#32)).map fun t =>
      (t.pc, t.csrRaw csrMcause, t.csrRaw csrMip, t.csrRaw csrMepc)) =
      some (0x8000#32, 0x8000000B#32, 0x2AA#32, 0x1000#32) := by decide
/-- VT3. -/
theorem test_interrupt_gate_closed :
    ((after 0x00100293 ((start.setCsrRaw csrMie 0x800#32).setCsrRaw csrMip 0x800#32)).map fun t =>
      (t.x 5, t.csrRaw csrMip)) =
      some (1#32, 0x800#32) := by decide
/-- VT9. -/
theorem test_irq_latched_and_taken :
    ((after 0x00000013 { gateOpen.setCsrRaw csrMie 0x200#32 with irqInputs := [1#32] }).map fun t =>
      (t.csrRaw csrMcause, t.csrRaw csrMip, t.irqInputs)) =
      some (0x80000009#32, 0#32, []) := by decide
/-- VT6. -/
theorem test_interrupt_delegated :
    supervisorView 0x00000013 (((((startIn .user).setCsrRaw csrStvec 0x4001#32).setCsrRaw csrMideleg 0x20#32).setCsrRaw
      csrMie 0x20#32).setCsrRaw csrMip 0x20#32) =
      some (.supervisor, 0x4014#32, 0#32, 0x1000#32, 0x80000005#32) := by decide

/-! ### The bank's bit helpers and the assembler's expansions -/

/-- 93_implementation_defined.md I17: the guard also turns away fields that end at bit 31. -/
theorem test_bank_guard : bankReadBits 0xFFFFFFFF#32 28 4 = none ∧ bankReadBits 0xFFFFFFFF#32 28 3 = some 7#32 := by
  decide
theorem test_bank_bits : bankWriteBits 0#32 11 2 3#32 = 0x1800#32 ∧ bankWriteBit 0#32 3 1 = 8#32 ∧
    bankWriteBit 0#32 3 2 = 0#32 ∧ bankReadBit 8#32 3 = some true ∧ bankReadBit 8#32 32 = none := by decide
/-- P2 loads 0x80FF7F81 with these two instructions. -/
theorem test_li : (Pseudo.li 6 0x80FF7F81#32).expand = [.lui 6 0x80FF8#20, .addi 6 6 0xF81#12] := by decide

/-! ### Witnesses: the hypotheses of each obligation are met -/

/-- A state of the run that is about to execute `addi x5, x0, 1`. -/
def placed : State := start.withFetchWord 32 0x00100293

theorem placed_inv : Inv placed :=
  ⟨by decide, by decide, by decide, by decide, by decide, by decide,
    by simp [idRegisters]; decide, by simp [viewRegisters]; decide,
    by decide⟩

theorem witness_DecodeOfEncode : (Instr.jal 1 0x1FFFFE#21).WellFormed ∧ (Instr.beq 1 2 0x1000#13).WellFormed ∧
    (Instr.fence 0 0 0 0 0).WellFormed := by decide
theorem witness_EncodeOfDecode : decodeWord 0xFE731EE3#32 = .ok (.bne 6 7 0x1FFC#13) := by decide
theorem witness_DecodesExactlyTheTable :
    decodeWord 0x12000073#32 = .ok (.sfenceVma 0 0) ∧ opcodeTable.length = 52 ∧
      (⟨"SFENCE.VMA", 0xFE007FFF, 0x12000073⟩ : OpcodeRow) ∈ opcodeTable ∧
      0x12000073#32 &&& 0xFE007FFF#32 = 0x12000073#32 := by decide
/-- The bits where R143's cases meet, on one word of each of the four signed layouts. -/
theorem witness_ImmediateBits :
    immI (immIField 0x80100000#32) = 0xFFFFF801#32 ∧ immS (immSField 0x82000080#32) = 0xFFFFF821#32 ∧
      immB (immBField 0x82000180#32) = 0xFFFFF822#32 ∧ immU (immUField 0x80001FFF#32) = 0x80001000#32 ∧
      immJ (immJField 0x80301000#32) = 0xFFF01802#32 := by decide
theorem witness_StepRunsDecodedInstruction :
    FetchesNext placed ∧ decodeWord (placed.read32 placed.pc) = .ok (.addi 5 0 1#12) := ⟨⟨rfl, by decide⟩, by decide⟩
theorem witness_RejectedWordTraps :
    FetchesNext start ∧ start.mode ≠ .debug ∧ decodeWord (start.read32 start.pc) = .error .opcode :=
  ⟨⟨rfl, by decide⟩, by decide, by decide⟩
theorem witness_FetchWordIsRun :
    FetchesNext start ∧ start.pc.toNat < start.memSize ∧ decodeTableWord 32 0x00100293 = some (.addi 5 0 1#12) :=
  ⟨⟨rfl, by decide⟩, by decide, by decide⟩
theorem witness_StepUsesOneIrqAnswer :
    start.status = .run ∧ (nextState (step { placed with irqInputs := [1#32, 0#32] })).isSome = true := by decide
theorem witness_HaltedCoreStaysPut :
    ({ start with status := .haltFatal } : State).status ≠ .run ∧
      ({ start with status := .haltUnimplemented } : State).status ≠ .run := by decide
/-- Both clauses of the latch: bit 9 with an answer, bit 9 without one, and a bit beside it. -/
theorem witness_LatchSetsOnlySeip :
    ({ start with irqInputs := [4#32] } : State).pollIrq.csrRaw csrMip = 0x200#32 ∧
      ({ start with irqInputs := [0#32] } : State).pollIrq.csrRaw csrMip = 0#32 := by decide
theorem witness_SelectsFirstEligibleInterrupt :
    ((start.setCsrRaw csrMie 0x8#32).setCsrRaw csrMip 0x88#32).selected = some .machineSoftware ∧
      start.selected = none := by decide
theorem witness_GateByMode :
    (startIn .machine).mode = .machine ∧ (startIn .supervisor).mode = .supervisor ∧ (startIn .user).mode = .user := by
  decide
/-- A state about to take the machine timer interrupt, with an answer of `irq()` to use up. -/
def timerPending : State :=
  { (gateOpen.setCsrRaw csrMie 0x80#32).setCsrRaw csrMip 0x80#32 with irqInputs := [1#32, 0#32] }

theorem witness_DeliverableInterruptIsTaken :
    timerPending.status = .run ∧ timerPending.mode ≠ .debug ∧
      timerPending.pollIrq.deliverable = some .machineTimer := by decide
/-- The modes of the clauses, and both delegation registers: the exception 2 goes by bit 2 of 0x302 and writes 2, the
interrupt 7 by bit 7 of 0x303 and writes 0x80000007 (60_exceptions.md R403, R411). -/
theorem witness_TrapEntryEffect :
    (startIn .user).mode ≠ .debug ∧ (startIn .debug).mode = .debug ∧
      (nextState (trapEntry (.exception .illegalInstruction) 0#32 ((startIn .user).setCsrRaw 0x302#12 4#32))).map
        (fun t => (t.mode, t.csrRaw 0x142#12)) = some (.supervisor, 2#32) ∧
      (nextState (trapEntry (.interrupt .machineTimer) 0#32 ((startIn .user).setCsrRaw 0x303#12 0x80#32))).map
        (fun t => (t.mode, t.csrRaw 0x142#12)) = some (.supervisor, 0x80000007#32) ∧
      (nextState (trapEntry (.interrupt .machineTimer) 0#32 ((startIn .user).setCsrRaw 0x302#12 0x80#32))).map
        (fun t => (t.mode, t.csrRaw 0x342#12)) = some (.machine, 0x80000007#32) := by decide
/-- A trap from U and S to S, and from U, S and M to M. -/
theorem witness_TrapNeverLowersPrivilege :
    (nextState (trapEntry (.exception .breakpoint) 0#32 ((startIn .user).setCsrRaw csrMedeleg 8#32))).map State.mode
        = some .supervisor ∧
      (nextState (trapEntry (.exception .breakpoint) 0#32 (startIn .supervisor))).map State.mode = some .machine ∧
      (nextState (trapEntry (.exception .breakpoint) 0#32 (startIn .machine))).map State.mode = some .machine := by
  decide
/-- W5: MIE set before the trap. -/
theorem witness_MretUndoesMachineTrap :
    (nextState (trapEntry (.exception .breakpoint) 0x1000#32 gateOpen)).map State.mode = some .machine := by decide
theorem witness_SretUndoesSupervisorTrap :
    (nextState (trapEntry (.exception .breakpoint) 0#32 ((startIn .supervisor).setCsrRaw csrMedeleg 8#32))).map
      State.mode = some .supervisor := by decide
theorem witness_CallAndBreakTrap :
    (startIn .user).mode = .user ∧ (startIn .supervisor).mode = .supervisor ∧ (startIn .machine).mode = .machine ∧
      (startIn .machine).mode ≠ .debug := by decide
theorem witness_SretEffect :
    ((startIn .supervisor).mode = .supervisor ∨ (startIn .supervisor).mode = .machine) ∧
      (start.mode = .supervisor ∨ start.mode = .machine) := by decide
theorem witness_MretEffect :
    start.mode = .machine ∧ (start.csrRaw 0x300#12).extractLsb' 11 2 ≠ 2#2 ∧
      ((start.setCsrRaw 0x300#12 0x800#32).csrRaw 0x300#12).extractLsb' 11 2 ≠ 2#2 ∧
      ((start.setCsrRaw 0x300#12 0x1800#32).csrRaw 0x300#12).extractLsb' 11 2 ≠ 2#2 := by decide
theorem witness_MretStopsOnInvalidMpp :
    (start.setCsrRaw 0x300#12 0x1000#32).mode = .machine ∧
      ((start.setCsrRaw 0x300#12 0x1000#32).csrRaw 0x300#12).extractLsb' 11 2 = 2#2 := by decide
theorem witness_ReturnsNeedPrivilege :
    (startIn .user).mode = .user ∧ ((startIn .supervisor).mode = .user ∨ (startIn .supervisor).mode = .supervisor) := by
  decide
/-- The fence iorw, iorw of R230 where the next fetch reads it. -/
theorem witness_FenceChangesOnlyPc :
    FetchesNext (start.withFetchWord 32 0x0FF0000F) ∧
      decodeWord ((start.withFetchWord 32 0x0FF0000F).read32 start.pc) = .ok (.fence 0 0xF 0xF 0 0) :=
  ⟨⟨rfl, by decide⟩, by decide⟩
/-- The last clause at its boundary, ea = MEM_SIZE. -/
theorem witness_LoadResults :
    Config.ValidMemSize start.memSize ∧
      (start.setX 6 0x800000#32).memSize ≤ ((start.setX 6 0x800000#32).x 6 + (0#12).signExtend 32).toNat := by decide
/-- The stored and the other bytes: the last backed byte, and the first that is not. -/
theorem witness_StoreByteResult :
    (0x7FFFFF#32).toNat < start.memSize ∧ (0x7FFFFF#32 - 0x7FFFFF#32).toNat < 1 ∧
      ¬ ((0x800000#32).toNat < start.memSize) := by decide
/-- The last byte of the last unit, and the byte after it. -/
theorem witness_StoreHalfAndWordResults :
    Config.ValidMemSize start.memSize ∧ (0x7FFFFF#32).toNat < start.memSize ∧
      (0x7FFFFF#32 - (0x7FFFFF#32 &&& 0xFFFFFFFE#32)).toNat < 2 ∧
      (0x7FFFFF#32 - (0x7FFFFF#32 &&& 0xFFFFFFFC#32)).toNat < 4 ∧
      ¬ (0x800000#32 - (0x7FFFFF#32 &&& 0xFFFFFFFC#32)).toNat < 4 := by decide
theorem witness_StoredWordReadsBackInEveryWidth :
    Config.ValidMemSize start.memSize ∧ (0x7FFFFC#32).toNat % 4 = 0 ∧ (0x7FFFFC#32).toNat < start.memSize := by decide
/-- A misaligned pc and a misaligned address in one word. -/
theorem witness_StoreIsSeenByNextFetch :
    ((start.setX 6 0x2001#32).x 6 + (2#12).signExtend 32) &&& 0xFFFFFFFC#32 = 0x2002#32 &&& 0xFFFFFFFC#32 ∧
      (0x2002#32).toNat < start.memSize ∧ ((start.setX 6 0x2001#32).x 6 + (2#12).signExtend 32).toNat < start.memSize := by
  decide
/-- A pc at MEM_SIZE in a core that fetches. -/
theorem witness_FetchAlignsDown :
    Config.ValidMemSize start.memSize ∧ start.memSize ≤ (0x800000#32).toNat ∧
      FetchesNext { start with pc := 0x800000#32 } ∧ start.mode ≠ .debug :=
  ⟨by decide, by decide, ⟨rfl, by decide⟩, by decide⟩
/-- Allowed at equal levels, refused one level up, in U and in S. -/
theorem witness_CsrInstructionResults :
    Mode.enc .user = some 0#2 ∧ (0xC00#12).extractLsb' 8 2 ≤ 0#2 ∧ ¬ (0x100#12).extractLsb' 8 2 ≤ 0#2 ∧
      Mode.enc .supervisor = some 1#2 ∧ (0x100#12).extractLsb' 8 2 ≤ 1#2 ∧ ¬ (0x300#12).extractLsb' 8 2 ≤ 1#2 := by
  decide
/-- A writable bit of sstatus, and of sip where delegated; then a bit no write changes. -/
theorem witness_CsrWriteChangesWritableBits :
    (csrMstatus = csrStorage csrSstatus ∧ csrWritable start csrSstatus 19) ∧
      (csrMip = csrStorage csrSip ∧ csrWritable (start.setCsrRaw csrMideleg 2#32) csrSip 1) ∧
      ¬ (csrMip = csrStorage csrSip ∧ csrWritable (start.setCsrRaw csrMideleg 2#32) csrSip 5) ∧
      ¬ (csrMstatus = csrStorage csrSstatus ∧ csrWritable start csrSstatus 20) := by
  unfold csrWritable csrFixed csrVisible
  decide
theorem witness_CsrReadShowsVisibleBits :
    csrVisible start csrSstatus 1 ∧ ¬ csrVisible start csrSstatus 0 ∧ csrVisible start csrMstatus 31 := by
  unfold csrVisible
  decide
theorem witness_FixedCsrsNeverChange :
    (nextState (step placed)).isSome = true ∧ csrFixed csrMisa ∧ csrFixed csrMhartid := by
  unfold csrFixed
  decide
/-- The lowest and the highest backed byte. -/
theorem witness_BootedMemoryHoldsImage :
    let image : List Host.Cell := [(0, 0x13#8), (0x7FFFFF, 0xAA#8)]
    Config.ValidMemSize 0x800000 ∧ (image.map Prod.fst).Nodup ∧ (∀ c ∈ image, c.1 < 0x800000) ∧
      (0x800000#32).toNat ∉ image.map Prod.fst := by decide
theorem witness_InvariantAtBoot : Config.ValidMemSize 0 ∧ Config.ValidMemSize (2 ^ 32) := by decide
theorem witness_StepKeepsInvariant : Inv placed ∧ (nextState (step placed)).isSome = true := ⟨placed_inv, by decide⟩
theorem witness_RunKeepsInvariant : Inv placed ∧ (nextState (Host.Core.run core 1 placed)).isSome = true :=
  ⟨placed_inv, by decide⟩

/-- About to execute MRET with MPP = 2. -/
def badReturn : State := (start.setCsrRaw csrMstatus 0x1000#32).withFetchWord 32 0x30200073

theorem badReturn_inv : Inv badReturn :=
  ⟨by decide, by decide, by decide, by decide, by decide, by decide,
    by simp [idRegisters]; decide, by simp [viewRegisters]; decide,
    by decide⟩

theorem witness_OnlyInvalidMretStops : Inv badReturn ∧ step badReturn = .fault .mretInvalidMpp :=
  ⟨badReturn_inv, rfl⟩
/-- The mode changes by a trap (U to M), by SRET (S to U) and by MRET (M to U). -/
theorem witness_ModeChangesOnlyByTrapOrReturn :
    (after 0x00000073 (startIn .user)).map State.mode = some .machine ∧
      (after 0x10200073 (startIn .supervisor)).map State.mode = some .user ∧
      (after 0x30200073 start).map State.mode = some .user := by decide
theorem witness_StepChangesOnlyRd : (nextState (step placed)).map (fun t => t.x 5) = some 1#32 ∧ placed.x 5 = 0#32 := by
  decide
theorem witness_OnlyStoresChangeMemory :
    ((after 0x00732423 stores).map fun t => t.read8 0x2008#32) = some 0x78#8 ∧
      (stores.withFetchWord 32 0x00732423).read8 0x2008#32 = 0#8 := by decide
theorem witness_UserModeKeepsPrivilegedCsrs :
    (startIn .user).mode = .user ∧
      (nextState (exec (.csrrw 5 0xC00#12 6) ((startIn .user).setX 6 7#32))).map
        (fun t => (t.mode, t.csrRaw 0xC00#12)) = some (.user, 7#32) ∧ (csrMstatus : CsrAddr).extractLsb' 8 2 ≠ 0#2 := by
  decide
theorem witness_UnprivilegedCodeIgnoresModeAndCsrs :
    isPrivileged (.add 5 6 7) = false ∧ (nextState (exec (.add 5 6 7) start)).isSome = true := by decide
/-- The three shapes of the expansion, at their boundaries. -/
theorem witness_LiExpansionLoadsConstant :
    (Pseudo.li 6 2047#32).expand = [.addi 6 0 0x7FF#12] ∧ (Pseudo.li 6 2048#32).expand = [.lui 6 1#20, .addi 6 6 0x800#12] ∧
      (Pseudo.li 6 0x1000#32).expand = [.lui 6 1#20] ∧ (Pseudo.li 6 0xFFFFF800#32).expand = [.addi 6 0 0x800#12] := by
  decide

end Sys2Proof.Tests
end

section
/-! PROOFS. The state after reset (spec/10_state.md R34, R39, R42, R47; spec/70_reset_and_hazards.md R470): each read
of `State.applyReset` the spec gives a value. -/

namespace Sys2Proof.Machine

/-- The reset bank lists `misa` alone (R47). -/
theorem sparseRead_resetBank (a : CsrAddr) :
    sparseRead a.toNat resetBank = if a = csrMisa then misaValue else 0#32 := by
  have listed : csrMisa.toNat = a.toNat ↔ a = csrMisa := BitVec.toNat_inj.trans eq_comm
  simp only [resetBank, sparseRead, listed]

namespace State

variable (s : State) (entry : Word)

@[simp] theorem applyReset_pc : (s.applyReset entry).pc = entry := rfl
@[simp] theorem applyReset_mode : (s.applyReset entry).mode = .machine := rfl
@[simp] theorem applyReset_regs : (s.applyReset entry).regs = Vector.replicate 32 0#32 := rfl
@[simp] theorem applyReset_csr : (s.applyReset entry).csr = resetBank := rfl

@[simp] theorem x_applyReset (r : Reg) : (s.applyReset entry).x r = 0#32 := by
  simp [x]

theorem csrRaw_applyReset (a : CsrAddr) :
    (s.applyReset entry).csrRaw a = if a = csrMisa then misaValue else 0#32 := by
  rw [csrRaw, applyReset_csr, sparseRead_resetBank]

end State

/-- Settles O47: each clause is the rule of `applyReset` for that part of the state. -/
theorem resetState : Obligations.ResetState := fun s entry =>
  ⟨s.x_applyReset entry, s.applyReset_pc entry, s.applyReset_mode entry, s.csrRaw_applyReset entry⟩

end Sys2Proof.Machine
end

section
/-! PROOFS. A byte store (spec/40_loads_stores.md R207): the one byte it changes, and its frame. -/

namespace Sys2Proof.Machine

theorem toNat_sub_lt_one_iff (a b : Word) : (b - a).toNat < 1 ↔ b = a := by
  rw [Nat.lt_one_iff]
  bv_omega

/-- The byte at `a` is the only one `write8` changes, and only when `a` is backed (20_memory.md R105). -/
theorem storeResult_write8 (s : State) (a v : Word) :
    StoreResult s (s.write8 a (v.extractLsb' 0 8)) (a.toNat < s.memSize) a 1 v where
  stored b backed inUnit := by
    obtain rfl := (toNat_sub_lt_one_iff a b).mp inUnit
    rw [read8_write8, if_pos ⟨(backed_iff s b).mpr backed, rfl⟩, BitVec.sub_self]
    rfl
  others b outside := by
    rw [read8_write8, if_neg]
    rwa [backed_iff, ← toNat_sub_lt_one_iff]
  registers r := s.x_write8 a _ r
  pc := s.write8_pc a _
  csrs c := s.csrRaw_write8 a _ c
  modes := ⟨rfl, rfl, rfl⟩
  inputs := ⟨rfl, rfl, rfl⟩

theorem exec_sb (s : State) (rs1 rs2 : Reg) (imm : BitVec 12) :
    exec (.sb rs1 rs2 imm) s = .next (s.write8 (s.x rs1 + imm.signExtend 32) ((s.x rs2).extractLsb' 0 8)) := rfl

/-- Settles O30: SB is `write8` at the address of R200, and `write8` changes that byte alone. -/
theorem storeByteResult : Obligations.StoreByteResult := fun s rs1 rs2 imm =>
  ⟨_, exec_sb s rs1 rs2 imm, storeResult_write8 s _ (s.x rs2)⟩

end Sys2Proof.Machine
end

section
/-! PROOFS. FENCE (spec/41_misc_mem.md R230), on its own and as a step of a core that fetches
(spec/60_exceptions.md R400). -/

namespace Sys2Proof.Machine

/-- The last two phases of a step, where the fetched word is an instruction (60_exceptions.md R400). -/
theorem executeNext_of_decode {s : State} {i : Instr} (h : decodeWord s.fetchWord = .ok i) :
    executeNext s = exec i s.advance := by
  rw [executeNext, h]

/-- A step that fetches an instruction runs it after the interrupt latch and the advance of the pc. -/
theorem step_of_decode {s : State} {i : Instr} (fetches : FetchesNext s) (h : decodeWord s.fetchWord = .ok i) :
    step s = exec i s.pollIrq.advance := by
  obtain ⟨running, noInterrupt⟩ := fetches
  rw [step_of_fetch running noInterrupt, executeNext_of_decode (s.fetchWord_pollIrq.symm ▸ h)]

theorem exec_fence (s : State) (fm pred succ : BitVec 4) (rs1 rd : Reg) :
    exec (.fence fm pred succ rs1 rd) s = .next s := rfl

/-- Settles O27: FENCE answers the state it is given, so the step's own latch and advance are all that happens. -/
theorem fenceChangesOnlyPc : Obligations.FenceChangesOnlyPc := fun fm pred succ rs1 rd s =>
  ⟨exec_fence s fm pred succ rs1 rd, fun fetches decoded =>
    (step_of_decode fetches decoded).trans (exec_fence s.pollIrq.advance fm pred succ rs1 rd)⟩

end Sys2Proof.Machine
end

section
/-! PROOFS. The ALU (spec/42_integer_computational.md R240 to R242) in integer arithmetic, and the register-register
and upper-immediate instructions that use it. -/

namespace Sys2Proof.Machine

/-! ### The ALU's results as integer arithmetic -/

/-- The low five bits of a word are its value modulo 32 (30_encoding.md R144). -/
theorem shiftAmount_eq_mod (v : Word) : shiftAmount v = v.toNat % 32 := by
  rw [shiftAmount, BitVec.extractLsb'_toNat, Nat.shiftRight_zero]

theorem shiftLeft_eq_ofNat_mul (a : Word) (n : Nat) : shiftLeft a n = BitVec.ofNat 32 (a.toNat * 2 ^ n) := by
  apply BitVec.eq_of_toNat_eq
  rw [shiftLeft, BitVec.toNat_shiftLeft, BitVec.toNat_ofNat, Nat.shiftLeft_eq]

theorem shiftRightLogical_eq_ofNat_div (a : Word) (n : Nat) :
    shiftRightLogical a n = BitVec.ofNat 32 (a.toNat / 2 ^ n) := by
  rw [shiftRightLogical, ← Nat.shiftRight_eq_div_pow, ← BitVec.toNat_ushiftRight, BitVec.ofNat_toNat,
    BitVec.setWidth_eq]

theorem shiftRightArithmetic_eq_ofInt_div (a : Word) (n : Nat) :
    shiftRightArithmetic a n = BitVec.ofInt 32 (a.toInt / 2 ^ n) := by
  rw [shiftRightArithmetic, BitVec.sshiftRight, Int.shiftRight_eq_div_pow, Nat.cast_pow, Nat.cast_ofNat]

/-- SLT's comparison is that of the signed readings. -/
theorem aluSlt_eq_ite (a b : Word) : aluSlt a b = if a.toInt < b.toInt then 1#32 else 0#32 := by
  simp only [aluSlt, boolWord, BitVec.slt_iff_toInt_lt]

/-- SLTU's comparison is that of the unsigned readings. -/
theorem aluSltu_eq_ite (a b : Word) : aluSltu a b = if a.toNat < b.toNat then 1#32 else 0#32 := by
  simp only [aluSltu, boolWord, BitVec.ult_iff_lt, BitVec.lt_def]

theorem add_eq_ofInt_add (a b : Word) : a + b = BitVec.ofInt 32 (a.toInt + b.toInt) := by
  apply BitVec.eq_of_toInt_eq
  rw [BitVec.toInt_add, BitVec.toInt_ofInt]

theorem sub_eq_ofInt_sub (a b : Word) : a - b = BitVec.ofInt 32 (a.toInt - b.toInt) := by
  apply BitVec.eq_of_toInt_eq
  rw [BitVec.toInt_sub, BitVec.toInt_ofInt]

/-- Twelve zero bits below the immediate multiply it by 2^12 (30_encoding.md R143). -/
theorem toNat_immU (imm20 : BitVec 20) : (immU imm20).toNat = imm20.toNat * 2 ^ 12 := by
  rw [immU, BitVec.toNat_append, BitVec.toNat_ofNat, Nat.zero_mod, Nat.or_zero, Nat.shiftLeft_eq]

theorem add_immU_eq_ofNat (a : Word) (imm20 : BitVec 20) :
    a + immU imm20 = BitVec.ofNat 32 (a.toNat + imm20.toNat * 2 ^ 12) := by
  apply BitVec.eq_of_toNat_eq
  rw [BitVec.toNat_add, toNat_immU, BitVec.toNat_ofNat]

/-! ### The register-register instructions -/

section

variable {s : State} {i : Instr} {rd rs1 rs2 : Reg} {v : Word}

/-- An instruction whose arm is `opReg f` puts `f` of the old operands into rd and changes nothing else. -/
theorem registerResult_of_opReg {f : Word → Word → Word} (arm : exec i s = opReg f rd rs1 rs2 s)
    (value : f (s.x rs1) (s.x rs2) = v) : ∃ t, exec i s = .next t ∧ RegisterResult s t rd v :=
  ⟨_, arm, registerResult_setX value⟩

/-- The same for an arm that shifts by the low five bits of rs2: the amount is the old x[rs2] modulo 32. -/
theorem registerResult_of_shift {shift : Word → Nat → Word}
    (arm : exec i s = opReg (fun a b => shift a (shiftAmount b)) rd rs1 rs2 s)
    (value : shift (s.x rs1) ((s.x rs2).toNat % 32) = v) : ∃ t, exec i s = .next t ∧ RegisterResult s t rd v :=
  registerResult_of_opReg arm (by rwa [shiftAmount_eq_mod])

end

/-- Settles O36: each arm is `opReg` of one ALU operation, which has its value in integer arithmetic. -/
theorem registerRegisterResults : Obligations.RegisterRegisterResults := fun _ _ _ _ =>
  ⟨registerResult_of_opReg rfl (add_eq_ofInt_add _ _),
    registerResult_of_opReg rfl (sub_eq_ofInt_sub _ _),
    registerResult_of_shift rfl (shiftLeft_eq_ofNat_mul _ _),
    registerResult_of_opReg rfl (aluSlt_eq_ite _ _),
    registerResult_of_opReg rfl (aluSltu_eq_ite _ _),
    registerResult_of_opReg rfl rfl,
    registerResult_of_shift rfl (shiftRightLogical_eq_ofNat_div _ _),
    registerResult_of_shift rfl (shiftRightArithmetic_eq_ofInt_div _ _),
    registerResult_of_opReg rfl rfl,
    registerResult_of_opReg rfl rfl⟩

/-! ### AUIPC -/

theorem exec_auipc (s : State) (rd : Reg) (imm20 : BitVec 20) :
    exec (.auipc rd imm20) s = .next (s.setX rd (s.pcInst + immU imm20)) := rfl

/-- Settles O37: AUIPC is one write of rd, with the sum of R253. -/
theorem auipcResult : Obligations.AuipcResult := fun s rd imm20 =>
  ⟨_, exec_auipc s rd imm20, registerResult_setX (add_immU_eq_ofNat s.pcInst imm20)⟩

end Sys2Proof.Machine
end

section
/-! PROOFS. Branches and JAL (spec/43_control_transfer.md R300 to R306, R308): where the pc goes, and the frame. -/

namespace Sys2Proof.Machine

/-! ### The branches -/

/-- Where the comparison holds a branch is one write of the pc; elsewhere it answers the state it is given (R300). -/
theorem pcResult_of_branch {s : State} {i : Instr} {rs1 rs2 : Reg} {imm : BitVec 13} {c : Word → Word → Bool}
    {holds : Prop} [Decidable holds] (arm : exec i s = branch c rs1 rs2 imm s)
    (comparison : c (s.x rs1) (s.x rs2) = true ↔ holds) :
    ∃ t, exec i s = .next t ∧ PcResult s t (if holds then s.pcInst + imm.signExtend 32 else s.pc) := by
  refine ⟨_, arm, ?_⟩
  by_cases taken : holds
  · rw [if_pos (comparison.mpr taken), if_pos taken]
    exact pcResult_setPc rfl
  · rw [if_neg (mt comparison.mp taken), if_neg taken]
    exact pcResult_self

/-- Settles O39: each arm is `branch` of one comparison, which is that of the signed or unsigned readings. -/
theorem branchResults : Obligations.BranchResults := fun _ _ _ _ =>
  ⟨pcResult_of_branch rfl beq_iff_eq,
    pcResult_of_branch rfl bne_iff_ne,
    pcResult_of_branch rfl BitVec.slt_iff_toInt_lt,
    pcResult_of_branch rfl BitVec.sle_iff_toInt_le,
    pcResult_of_branch rfl BitVec.ult_iff_lt,
    pcResult_of_branch rfl BitVec.ule_iff_le⟩

/-! ### JAL -/

theorem exec_jal (s : State) (rd : Reg) (imm : BitVec 21) :
    exec (.jal rd imm) s = .next ((s.setX rd (s.pcInst + 4#32)).setPc (s.pcInst + imm.signExtend 32)) := rfl

/-- Settles O40: JAL is the write of the link value to rd, then the write of the pc. -/
theorem jalResult : Obligations.JalResult := fun s rd imm =>
  ⟨_, exec_jal s rd imm, linkResult_setX_setPc rfl⟩

end Sys2Proof.Machine
end

section
/-! PROOFS. What can change the mode (spec/60_exceptions.md R420): trap entry, SRET and MRET, and what each of them
makes it. `Effect` lists what instructions do without saying which instruction does what; the split over the
instructions here keeps the two returns apart from the rest. -/

namespace Sys2Proof.Machine

variable {s t : State}

/-- `t` is what a trap taken in mode `m` leads to, a Supervisor or Machine state (R411). -/
def EndedInTrap (m : Mode) (t : State) : Prop :=
  ∃ (c : Cause) (epc : Word) (p : State), p.mode = m ∧ trapEntry c epc p = .next t ∧
    (t.mode = .supervisor ∨ t.mode = .machine)

theorem endedInTrap_of_trapEntry {c : Cause} {epc : Word} (h : trapEntry c epc s = .next t) :
    EndedInTrap s.mode t := by
  obtain ⟨-, -, -, -, supervisorOrMachine⟩ := trapEntry_keeps h
  exact ⟨c, epc, s, rfl, h, supervisorOrMachine⟩

theorem endedInTrap_of_raise {e : ExceptionKind} (h : raise e s = .next t) : EndedInTrap s.mode t :=
  endedInTrap_of_trapEntry h

/-- Delivery clears the interrupt's bit of `mip` first, which leaves the mode alone (R410). -/
theorem endedInTrap_of_takeInterrupt {i : Interrupt} (h : takeInterrupt i s = .next t) : EndedInTrap s.mode t := by
  unfold takeInterrupt at h
  simpa only [State.setCsrRaw_mode] using endedInTrap_of_trapEntry h

/-! ### The mode after each kind of instruction -/

theorem mode_of_branch {c : Word → Word → Bool} {rs1 rs2 : Reg} {imm : BitVec 13}
    (h : branch c rs1 rs2 imm s = .next t) : t.mode = s.mode := by
  cases h
  split <;> rfl

theorem mode_of_csrInstr {f : Word → Word → Word} {rd : Reg} {a : CsrAddr} {src : Word}
    (h : csrInstr f rd a src s = .next t) : t.mode = s.mode ∨ EndedInTrap s.mode t := by
  unfold csrInstr at h
  split at h
  · cases h
    exact .inl (by simp)
  · exact .inr (endedInTrap_of_raise h)

theorem endedInTrap_of_execEcall (h : execEcall s = .next t) : EndedInTrap s.mode t := by
  unfold execEcall at h
  split at h
  · exact endedInTrap_of_raise h
  · exact endedInTrap_of_raise h
  · exact endedInTrap_of_raise h
  · cases h

/-- SRET goes to U or S, or traps where it is not allowed (45_system.md R373). -/
theorem mode_of_execSret (h : execSret s = .next t) :
    EndedInTrap s.mode t ∨ t.mode = .user ∨ t.mode = .supervisor := by
  unfold execSret at h
  split at h
  · cases h
    rw [State.returnFromSupervisor_mode]
    split
    · exact .inr (.inr rfl)
    · exact .inr (.inl rfl)
  · exact .inl (endedInTrap_of_raise h)

/-- No MPP value names Debug (10_state.md R41). -/
theorem modeOfMpp_eq_some {p : BitVec 2} {m : Mode} (h : modeOfMpp p = some m) :
    m = .user ∨ m = .supervisor ∨ m = .machine := by
  unfold modeOfMpp at h
  split at h <;> cases h <;> decide

/-- MRET goes to U, S or M, or traps where it is not allowed (45_system.md R374). -/
theorem mode_of_execMret (h : execMret s = .next t) :
    EndedInTrap s.mode t ∨ t.mode = .user ∨ t.mode = .supervisor ∨ t.mode = .machine := by
  unfold execMret at h
  split at h
  · obtain ⟨m, named, rfl⟩ := s.returnFromMachine_next h
    exact .inr (modeOfMpp_eq_some named)
  · exact .inl (endedInTrap_of_raise h)

/-- Every instruction but SRET and MRET keeps the mode or traps. -/
theorem mode_of_exec_of_not_return {i : Instr} (notSret : i ≠ .sret) (notMret : i ≠ .mret) (h : exec i s = .next t) :
    t.mode = s.mode ∨ EndedInTrap s.mode t := by
  cases i with
  | sret => exact absurd rfl notSret
  | mret => exact absurd rfl notMret
  | ecall => exact .inr (endedInTrap_of_execEcall h)
  | ebreak => exact .inr (endedInTrap_of_raise h)
  | csrrw | csrrs | csrrc | csrrwi | csrrsi | csrrci => exact mode_of_csrInstr h
  | beq | bne | blt | bge | bltu | bgeu => exact .inl (mode_of_branch h)
  | _ => cases h; exact .inl rfl

/-- An instruction that changes the mode trapped or is a return (R420). -/
theorem mode_of_exec {i : Instr} (h : exec i s = .next t) (changed : t.mode ≠ s.mode) :
    EndedInTrap s.mode t ∨
      (i = .sret ∧ (t.mode = .user ∨ t.mode = .supervisor)) ∨
      (i = .mret ∧ (t.mode = .user ∨ t.mode = .supervisor ∨ t.mode = .machine)) := by
  by_cases isSret : i = .sret
  · subst isSret
    exact (mode_of_execSret h).imp_right fun target => .inl ⟨rfl, target⟩
  by_cases isMret : i = .mret
  · subst isMret
    exact (mode_of_execMret h).imp_right fun target => .inr ⟨rfl, target⟩
  exact .inl ((mode_of_exec_of_not_return isSret isMret h).resolve_left changed)

/-! ### The mode after a step -/

/-- What a step that changes the mode did (R420); the latch and the advance before it leave the mode alone. -/
theorem mode_of_step (h : step s = .next t) (changed : t.mode ≠ s.mode) :
    EndedInTrap s.mode t ∨
      (decodeWord s.fetchWord = .ok .sret ∧ (t.mode = .user ∨ t.mode = .supervisor)) ∨
      (decodeWord s.fetchWord = .ok .mret ∧ (t.mode = .user ∨ t.mode = .supervisor ∨ t.mode = .machine)) := by
  rw [← s.pollIrq_mode] at changed ⊢
  rcases step_next h with ⟨_, rfl⟩ | ⟨_, _, _, taken⟩ | ⟨_, _, ⟨i, decoded, executed⟩ | ⟨_, _, raised⟩⟩
  · exact absurd t.pollIrq_mode.symm changed
  · exact .inl (endedInTrap_of_takeInterrupt taken)
  · rw [← State.advance_mode] at changed ⊢
    rcases mode_of_exec executed changed with trapped | ⟨rfl, target⟩ | ⟨rfl, target⟩
    · exact .inl trapped
    · exact .inr (.inl ⟨decoded, target⟩)
    · exact .inr (.inr ⟨decoded, target⟩)
  · rw [← State.advance_mode]
    exact .inl (endedInTrap_of_raise raised)

/-- Settles O55: a step's clause is `mode_of_step`, and reset sets M (10_state.md R42). -/
theorem modeChangesOnlyByTrapOrReturn : Obligations.ModeChangesOnlyByTrapOrReturn :=
  ⟨fun _ _ => mode_of_step, State.applyReset_mode⟩

end Sys2Proof.Machine
end

section
/-! PROOFS. The encoder and the decoder undo each other, and the decoder accepts the opcode table's words and no
others (spec/30_encoding.md R140 to R150). Each direction splits into the families the opcode field tells apart. -/

namespace Sys2Proof

/-! ### Decoding an encoded instruction -/

/-- A word with SFENCE.VMA's funct7 and rd is none of the six exact words before it (R148). -/
theorem decodeSystemWord_of_sfence {w : Word} (f7 : funct7Field w = 0b0001001#7) (rd : rdField w = 0) :
    decodeSystemWord w = .ok (.sfenceVma (rs1Field w) (rs2Field w)) := by
  have other : ∀ p : Word, funct7Field p ≠ 0b0001001#7 → w ≠ p := fun p hp h => hp (h ▸ f7)
  rw [decodeSystemWord, if_neg (other _ (by decide)), if_neg (other _ (by decide)), if_neg (other _ (by decide)),
    if_neg (other _ (by decide)), if_neg (other _ (by decide)), if_neg (other _ (by decide)), if_pos ⟨f7, rd⟩]

theorem decodeWord_encode {i : Instr} (h : i.WellFormed) : decodeWord (encode i) = .ok i := by
  cases i with
  | lb | lh | lw | lbu | lhu =>
    simp only [encode, encodeLoad, decodeWord, decodeLoad, opcodeField_encodeI, funct3Field_encodeI, rdField_encodeI,
      rs1Field_encodeI, immIField_encodeI]
  | sb | sh | sw =>
    simp only [encode, encodeStore, decodeWord, decodeStore, opcodeField_encodeS, funct3Field_encodeS,
      rs1Field_encodeS, rs2Field_encodeS, immSField_encodeS]
  | fence fm pred succ rs1 rd =>
    obtain ⟨hfm, hpred, hsucc⟩ := fenceFields_encodeI fm pred succ (regBits rs1) 0b000#3 rd 0b0001111#7
    simp only [encode, decodeWord, decodeMiscMem, opcodeField_encodeI, funct3Field_encodeI, rdField_encodeI,
      rs1Field_encodeI, hfm, hpred, hsucc]
  | fenceI =>
    simp only [encode, decodeWord, decodeMiscMem, opcodeField_encodeI, funct3Field_encodeI, rdField_encodeI,
      rs1Field_encodeI, immIField_encodeI]
  | addi | slti | sltiu | xori | ori | andi =>
    simp only [encode, encodeOpImm, decodeWord, decodeOpImm, opcodeField_encodeI, funct3Field_encodeI,
      rdField_encodeI, rs1Field_encodeI, immIField_encodeI]
  | slli | srli | srai =>
    simp [encode, encodeShiftImm, decodeWord, decodeOpImm, opcodeField_encodeI, funct3Field_encodeI,
      funct7Field_encodeI, rdField_encodeI, rs1Field_encodeI, shamtField_encodeI]
  | auipc | lui => simp only [encode, decodeWord, opcodeField_encodeU, rdField_encodeU, immUField_encodeU]
  | add | sub | sll | slt | sltu | xor | srl | sra | or | and =>
    simp [encode, encodeOp, decodeWord, decodeOp, opcodeField_encodeR, funct3Field_encodeR,
      funct7Field_encodeR, rdField_encodeR, rs1Field_encodeR, rs2Field_encodeR]
  | beq | bne | blt | bge | bltu | bgeu =>
    simp only [encode, encodeBranch, decodeWord, decodeBranch, opcodeField_encodeB, funct3Field_encodeB,
      rs1Field_encodeB, rs2Field_encodeB, immBField_encodeB _ _ _ _ _ h]
  | jalr =>
    simp only [encode, decodeWord, decodeJalr, opcodeField_encodeI, funct3Field_encodeI, rdField_encodeI,
      rs1Field_encodeI, immIField_encodeI]
  | jal => simp only [encode, decodeWord, opcodeField_encodeJ, rdField_encodeJ, immJField_encodeJ _ _ _ h]
  | csrrw | csrrs | csrrc | csrrwi | csrrsi | csrrci =>
    simp only [encode, encodeCsr, decodeWord, decodeSystem, opcodeField_encodeI, funct3Field_encodeI,
      rdField_encodeI, rs1Field_encodeI, immIField_encodeI, zimmField_encodeI]
  | ecall | ebreak | uret | sret | mret | wfi => rfl
  | sfenceVma =>
    simp only [encode, decodeWord, decodeSystem, opcodeField_encodeR, funct3Field_encodeR, rs1Field_encodeR,
      rs2Field_encodeR, decodeSystemWord_of_sfence (funct7Field_encodeR ..) (rdField_encodeR ..)]

/-- Settles O2: the fields of an encoded word are the instruction's own, so the decoder finds them again. -/
theorem decodeOfEncode : Obligations.DecodeOfEncode := fun _ => decodeWord_encode

/-! ### Encoding a decoded word

An accepted word holds its family's opcode and its row's selecting fields, and a word is made of its fields. -/

variable {w : Word} {i : Instr} {op : BitVec 7} {f3 : BitVec 3} {f7 : BitVec 7}

theorem encodeI_of_fields (hop : opcodeField w = op) (hf3 : funct3Field w = f3) :
    encodeI (immIField w) (zimmField w) f3 (rdField w) op = w := by
  rw [← hop, ← hf3, encodeI_fields]

/-- The shifts' form of an I word, funct7 above the shift amount (R142, R144). -/
theorem encodeI_of_shiftFields (hop : opcodeField w = op) (hf3 : funct3Field w = f3) (hf7 : funct7Field w = f7) :
    encodeI (f7 ++ shamtField w) (zimmField w) f3 (rdField w) op = w := by
  rw [← hf7, shiftFields_append, encodeI_of_fields hop hf3]

theorem encodeR_of_fields (hop : opcodeField w = op) (hf3 : funct3Field w = f3) (hf7 : funct7Field w = f7) :
    encodeR f7 (rs2Field w) (rs1Field w) f3 (rdField w) op = w := by
  rw [← hop, ← hf3, ← hf7, encodeR_fields]

theorem encodeS_of_fields (hop : opcodeField w = op) (hf3 : funct3Field w = f3) :
    encodeS (immSField w) (rs2Field w) (rs1Field w) f3 op = w := by
  rw [← hop, ← hf3, encodeS_fields]

theorem encodeB_of_fields (hop : opcodeField w = op) (hf3 : funct3Field w = f3) :
    encodeB (immBField w) (rs2Field w) (rs1Field w) f3 op = w := by
  rw [← hop, ← hf3, encodeB_fields]

theorem encode_of_decodeLoad (hop : opcodeField w = 0b0000011#7) (h : decodeLoad w = .ok i) :
    i.WellFormed ∧ encode i = w := by
  unfold decodeLoad at h
  split at h <;> cases h <;> exact ⟨rfl, encodeI_of_fields hop ‹_›⟩

theorem encode_of_decodeMiscMem (hop : opcodeField w = 0b0001111#7) (h : decodeMiscMem w = .ok i) :
    i.WellFormed ∧ encode i = w := by
  unfold decodeMiscMem at h
  split at h <;> cases h
  · exact ⟨rfl, by rw [encode, fenceFields_append]; exact encodeI_of_fields hop ‹_›⟩
  · exact ⟨rfl, encodeI_of_fields hop ‹_›⟩

/-- The funct3 that OP-IMM's other arms leave is that of SRLI and SRAI. -/
theorem funct3_of_opImm_rest : ∀ f : BitVec 3, f ≠ 0b000#3 → f ≠ 0b010#3 → f ≠ 0b011#3 → f ≠ 0b100#3 → f ≠ 0b110#3 →
    f ≠ 0b111#3 → f ≠ 0b001#3 → f = 0b101#3 := by bv_omega

/-- The funct3 that OP's other arms leave is that of AND. -/
theorem funct3_of_op_rest : ∀ f : BitVec 3, f ≠ 0b000#3 → f ≠ 0b001#3 → f ≠ 0b010#3 → f ≠ 0b011#3 → f ≠ 0b100#3 →
    f ≠ 0b101#3 → f ≠ 0b110#3 → f = 0b111#3 := by bv_omega

theorem encode_of_decodeOpImm (hop : opcodeField w = 0b0010011#7) (h : decodeOpImm w = .ok i) :
    i.WellFormed ∧ encode i = w := by
  unfold decodeOpImm at h
  split at h
  case h_7 => split at h <;> cases h; exact ⟨rfl, encodeI_of_shiftFields hop ‹_› ‹_›⟩
  case h_8 n0 n2 n3 n4 n6 n7 n1 =>
    have f3 := funct3_of_opImm_rest _ n0 n2 n3 n4 n6 n7 n1
    split at h <;> cases h <;> exact ⟨rfl, encodeI_of_shiftFields hop f3 ‹_›⟩
  all_goals cases h; exact ⟨rfl, encodeI_of_fields hop ‹_›⟩

theorem encode_of_decodeStore (hop : opcodeField w = 0b0100011#7) (h : decodeStore w = .ok i) :
    i.WellFormed ∧ encode i = w := by
  unfold decodeStore at h
  split at h <;> cases h <;> exact ⟨rfl, encodeS_of_fields hop ‹_›⟩

theorem encode_of_decodeOp (hop : opcodeField w = 0b0110011#7) (h : decodeOp w = .ok i) :
    i.WellFormed ∧ encode i = w := by
  unfold decodeOp at h
  split at h
  · split at h <;> cases h
    case h_8 n0 n1 n2 n3 n4 n5 n6 =>
      exact ⟨rfl, encodeR_of_fields hop (funct3_of_op_rest _ n0 n1 n2 n3 n4 n5 n6) ‹_›⟩
    all_goals exact ⟨rfl, encodeR_of_fields hop ‹_› ‹_›⟩
  · split at h <;> cases h <;> exact ⟨rfl, encodeR_of_fields hop ‹_› ‹_›⟩
  · cases h

theorem encode_of_decodeBranch (hop : opcodeField w = 0b1100011#7) (h : decodeBranch w = .ok i) :
    i.WellFormed ∧ encode i = w := by
  unfold decodeBranch at h
  split at h <;> cases h <;> exact ⟨evenOffset_immBField w, encodeB_of_fields hop ‹_›⟩

theorem encode_of_decodeJalr (hop : opcodeField w = 0b1100111#7) (h : decodeJalr w = .ok i) :
    i.WellFormed ∧ encode i = w := by
  unfold decodeJalr at h
  split at h <;> cases h
  exact ⟨rfl, encodeI_of_fields hop ‹_›⟩

theorem encode_of_decodeSystemWord (hop : opcodeField w = 0b1110011#7) (hf3 : funct3Field w = 0b000#3)
    (h : decodeSystemWord w = .ok i) : i.WellFormed ∧ encode i = w := by
  unfold decodeSystemWord at h
  split_ifs at h with h1 h2 h3 h4 h5 h6 sfence <;> cases h
  iterate 6 (subst w; exact ⟨rfl, rfl⟩)
  obtain ⟨hf7, hrd⟩ := sfence
  exact ⟨rfl, by rw [encode, ← hrd, encodeR_of_fields hop hf3 hf7]⟩

theorem encode_of_decodeSystem (hop : opcodeField w = 0b1110011#7) (h : decodeSystem w = .ok i) :
    i.WellFormed ∧ encode i = w := by
  unfold decodeSystem at h
  split at h
  case h_1 hf3 => exact encode_of_decodeSystemWord hop hf3 h
  all_goals cases h
  all_goals exact ⟨rfl, encodeI_of_fields hop ‹_›⟩

theorem encode_of_decodeWord (h : decodeWord w = .ok i) : i.WellFormed ∧ encode i = w := by
  unfold decodeWord at h
  split at h
  case h_1 hop => exact encode_of_decodeLoad hop h
  case h_2 hop => exact encode_of_decodeMiscMem hop h
  case h_3 hop => exact encode_of_decodeOpImm hop h
  case h_4 hop => cases h; exact ⟨rfl, by rw [encode, ← hop, encodeU_fields]⟩
  case h_5 hop => exact encode_of_decodeStore hop h
  case h_6 hop => exact encode_of_decodeOp hop h
  case h_7 hop => cases h; exact ⟨rfl, by rw [encode, ← hop, encodeU_fields]⟩
  case h_8 hop => exact encode_of_decodeBranch hop h
  case h_9 hop => exact encode_of_decodeJalr hop h
  case h_10 hop => cases h; exact ⟨evenOffset_immJField w, by rw [encode, ← hop, encodeJ_fields]⟩
  case h_11 hop => exact encode_of_decodeSystem hop h
  case h_12 => cases h

/-- Settles O3: family by family, the fields the decoder kept are all of the word. -/
theorem encodeOfDecode : Obligations.EncodeOfDecode := fun _ _ => encode_of_decodeWord

/-! ### The decoder and the opcode table -/

open Laws.EncodesIntoRow in
/-- Every instruction's word lies in the row of its mnemonic (R148). -/
theorem encode_matches_row : ∀ i : Instr, Statement i
  | .lb .. => lb .. | .lh .. => lh .. | .lw .. => lw .. | .lbu .. => lbu .. | .lhu .. => lhu .. | .sb .. => sb ..
  | .sh .. => sh .. | .sw .. => sw .. | .fence .. => fence .. | .fenceI .. => fenceI .. | .addi .. => addi ..
  | .slti .. => slti .. | .sltiu .. => sltiu .. | .xori .. => xori .. | .ori .. => ori .. | .andi .. => andi ..
  | .slli .. => slli .. | .srli .. => srli .. | .srai .. => srai .. | .auipc .. => auipc .. | .add .. => add ..
  | .sub .. => sub .. | .sll .. => sll .. | .slt .. => slt .. | .sltu .. => sltu .. | .xor .. => xor ..
  | .srl .. => srl .. | .sra .. => sra .. | .or .. => or .. | .and .. => and .. | .lui .. => lui ..
  | .beq .. => beq .. | .bne .. => bne .. | .blt .. => blt .. | .bge .. => bge .. | .bltu .. => bltu ..
  | .bgeu .. => bgeu .. | .jalr .. => jalr .. | .jal .. => jal .. | .csrrw .. => csrrw .. | .csrrs .. => csrrs ..
  | .csrrc .. => csrrc .. | .csrrwi .. => csrrwi .. | .csrrsi .. => csrrsi .. | .csrrci .. => csrrci ..
  | .ecall => ecall | .ebreak => ebreak | .uret => uret | .sret => sret | .mret => mret | .wfi => wfi
  | .sfenceVma .. => sfenceVma ..

/-- An accepted word lies in the row of its instruction: it is that instruction's encoding. -/
theorem decodeWord_matches_row (h : decodeWord w = .ok i) :
    ∃ row ∈ opcodeTable, row.mnemonic = i.mnemonic ∧ w &&& row.mask = row.pattern := by
  obtain ⟨-, rfl⟩ := encode_of_decodeWord h
  exact encode_matches_row i

/-- The word decodes to an instruction of the row. -/
def DecodesInto (row : OpcodeRow) (w : Word) : Prop := ∃ i : Instr, decodeWord w = .ok i ∧ i.mnemonic = row.mnemonic

variable {row : OpcodeRow}

theorem decodesInto_of_memory (listed : row ∈ opcodeRowsMemory) (h : row.Matches w) : DecodesInto row w := by
  simp only [opcodeRowsMemory, List.mem_cons, List.not_mem_nil, or_false] at listed
  rcases listed with rfl | rfl | rfl | rfl | rfl | rfl | rfl | rfl | rfl | rfl <;>
  · obtain ⟨op, f3⟩ := funct3Field_of_mask h
    simp [DecodesInto, decodeWord, op, decodeLoad, decodeStore, decodeMiscMem, f3, Instr.mnemonic]

theorem decodesInto_of_immediate (listed : row ∈ opcodeRowsImmediate) (h : row.Matches w) : DecodesInto row w := by
  simp only [opcodeRowsImmediate, List.mem_cons, List.not_mem_nil, or_false] at listed
  rcases listed with rfl | rfl | rfl | rfl | rfl | rfl | rfl | rfl | rfl | rfl | rfl
  -- six rows go by funct3, the three shifts by funct7 too, AUIPC and LUI by the opcode alone
  iterate 6 (
    obtain ⟨op, f3⟩ := funct3Field_of_mask h
    simp [DecodesInto, decodeWord, op, decodeOpImm, f3, Instr.mnemonic])
  iterate 3 (
    obtain ⟨op, f3, f7⟩ := funct7Field_of_mask h
    simp [DecodesInto, decodeWord, op, decodeOpImm, f3, f7, Instr.mnemonic])
  iterate 2 simp [DecodesInto, decodeWord, opcodeField_of_mask h, Instr.mnemonic]

theorem decodesInto_of_register (listed : row ∈ opcodeRowsRegister) (h : row.Matches w) : DecodesInto row w := by
  simp only [opcodeRowsRegister, List.mem_cons, List.not_mem_nil, or_false] at listed
  rcases listed with rfl | rfl | rfl | rfl | rfl | rfl | rfl | rfl | rfl | rfl <;>
  · obtain ⟨op, f3, f7⟩ := funct7Field_of_mask h
    simp [DecodesInto, decodeWord, op, decodeOp, f3, f7, Instr.mnemonic]

theorem decodesInto_of_control (listed : row ∈ opcodeRowsControl) (h : row.Matches w) : DecodesInto row w := by
  simp only [opcodeRowsControl, List.mem_cons, List.not_mem_nil, or_false] at listed
  rcases listed with rfl | rfl | rfl | rfl | rfl | rfl | rfl | rfl
  -- the branches and JALR go by funct3, JAL by the opcode alone
  iterate 7 (
    obtain ⟨op, f3⟩ := funct3Field_of_mask h
    simp [DecodesInto, decodeWord, op, decodeBranch, decodeJalr, f3, Instr.mnemonic])
  simp [DecodesInto, decodeWord, opcodeField_of_mask h, Instr.mnemonic]

/-- The mask of an exact word leaves the word as it is. -/
theorem eq_of_full_mask {p : Word} (h : w &&& 0xFFFFFFFF#32 = p) : w = p := by
  rw [← h, show 0xFFFFFFFF#32 = BitVec.allOnes 32 from rfl, BitVec.and_allOnes]

theorem decodesInto_of_system (listed : row ∈ opcodeRowsSystem) (h : row.Matches w) : DecodesInto row w := by
  simp only [opcodeRowsSystem, List.mem_cons, List.not_mem_nil, or_false] at listed
  rcases listed with rfl | rfl | rfl | rfl | rfl | rfl | rfl | rfl | rfl | rfl | rfl | rfl | rfl
  -- the CSR rows go by funct3, six rows are exact words, and SFENCE.VMA also fixes funct7 and rd
  iterate 6 (
    obtain ⟨op, f3⟩ := funct3Field_of_mask h
    simp [DecodesInto, decodeWord, op, decodeSystem, f3, Instr.mnemonic])
  iterate 6 (
    obtain rfl := eq_of_full_mask h
    exact ⟨_, rfl, rfl⟩)
  obtain ⟨op, f3, f7, rd⟩ := sfenceFields_of_mask h
  have rd : rdField w = 0 := congrArg BitVec.toFin rd
  simp [DecodesInto, decodeWord, op, decodeSystem, f3, decodeSystemWord_of_sfence f7 rd, Instr.mnemonic]

theorem decodesInto_of_matches (listed : row ∈ opcodeTable) (h : row.Matches w) : DecodesInto row w := by
  simp only [opcodeTable, List.mem_append] at listed
  rcases listed with (((memory | immediate) | register) | control) | system
  · exact decodesInto_of_memory memory h
  · exact decodesInto_of_immediate immediate h
  · exact decodesInto_of_register register h
  · exact decodesInto_of_control control h
  · exact decodesInto_of_system system h

/-- Settles O4: an accepted word is an encoding, which lies in its instruction's row; a row's word has the fields
that lead the decoder to the row's instruction. -/
theorem decodesExactlyTheTable : Obligations.DecodesExactlyTheTable :=
  ⟨fun _ _ => decodeWord_matches_row, fun _ _ => decodesInto_of_matches⟩

/-- Settles O1: the decoder evaluates each word. -/
theorem decodesWordsOfEveryFamily : Obligations.DecodesWordsOfEveryFamily :=
  ⟨rfl, rfl, rfl, rfl, rfl, rfl, rfl, rfl, rfl, rfl, rfl, rfl, rfl, rfl, rfl⟩

/-! ### The bits of the immediates (R143)

The bits below the field's top one are the word's, by the field's layout; from there up they are the field's sign. -/

section

open Machine

variable {k : Nat} (hk : k < 32)
include hk

theorem getLsbD_immI :
    (immI (immIField w)).getLsbD k = w.getLsbD (if k < 11 then k + 20 else 31) := by
  simp only [immI, sext, immIField, BitVec.getLsbD_signExtend, BitVec.msb_eq_getLsbD_last, BitVec.getLsbD_extractLsb']
  interval_cases k <;> simp

theorem getLsbD_immS :
    (immS (immSField w)).getLsbD k = w.getLsbD (if k < 5 then k + 7 else if k < 11 then k + 20 else 31) := by
  simp only [immS, sext, immSField, BitVec.getLsbD_signExtend, BitVec.msb_eq_getLsbD_last, BitVec.getLsbD_extractLsb',
    BitVec.getLsbD_append]
  interval_cases k <;> simp

theorem getLsbD_immB :
    (immB (immBField w)).getLsbD k =
      (if k = 0 then false
       else w.getLsbD (if k < 5 then k + 7 else if k < 11 then k + 20 else if k = 11 then 7 else 31)) := by
  simp only [immB, sext, immBField, BitVec.getLsbD_signExtend, BitVec.msb_eq_getLsbD_last, BitVec.getLsbD_extractLsb',
    BitVec.getLsbD_append]
  interval_cases k <;> simp

theorem getLsbD_immU :
    (immU (immUField w)).getLsbD k = (if k < 12 then false else w.getLsbD k) := by
  simp only [immU, immUField, BitVec.getLsbD_append, BitVec.getLsbD_extractLsb']
  interval_cases k <;> simp

theorem getLsbD_immJ :
    (immJ (immJField w)).getLsbD k =
      (if k = 0 then false
       else w.getLsbD (if k < 11 then k + 20 else if k = 11 then 20 else if k < 20 then k else 31)) := by
  simp only [immJ, sext, immJField, BitVec.getLsbD_signExtend, BitVec.msb_eq_getLsbD_last, BitVec.getLsbD_extractLsb',
    BitVec.getLsbD_append]
  interval_cases k <;> simp

end

/-- Settles O5: one clause per layout. -/
theorem immediateBits : Obligations.ImmediateBits := fun _ _ hk =>
  ⟨getLsbD_immI hk, getLsbD_immS hk, getLsbD_immB hk, getLsbD_immU hk, getLsbD_immJ hk⟩

end Sys2Proof
end

section
/-! PROOFS. Trap entry and trap return (spec/60_exceptions.md R401 to R417; spec/45_system.md R370 to R374): what a
trap taken is in the spec's terms, when taking one stops, and the instructions that trap or return. -/

namespace Sys2Proof.Machine

variable {s t : State} {c : Cause} {epc : Word}

/-! ### Trap entry -/

/-- The trap is taken for an interrupt (R403). -/
def Cause.isInterrupt : Cause → Bool
  | .exception _ => false
  | .interrupt _ => true

theorem Cause.value_eq (c : Cause) :
    c.value = if c.isInterrupt then 0x80000000#32 ||| BitVec.ofNat 32 c.code else BitVec.ofNat 32 c.code := by
  cases c <;> rfl

theorem csrRaw_delegationRegister (s : State) (c : Cause) :
    s.csrRaw c.delegationRegister = if c.isInterrupt then s.csrRaw 0x303#12 else s.csrRaw 0x302#12 := by
  cases c <;> rfl

/-- Only a trap taken in U or S is delegated, by its bit of the delegation register (R411). -/
theorem delegated_eq_true_iff : s.delegated c = true ↔
    (s.mode = .user ∨ s.mode = .supervisor) ∧ (s.csrRaw c.delegationRegister).getLsbD c.code = true := by
  simp [State.delegated]

/-- What trap entry answers is the trap taken, in the spec's terms: each branch of the entry has its effect, and the
mode and the delegation bit choose the branch. -/
theorem trapTaken_of_trapEntry (h : trapEntry c epc s = .next t) : TrapTaken s t c.isInterrupt c.code epc := by
  rcases trapEntry_next h with ⟨delegated, rfl⟩ | ⟨notDelegated, mpp, encoded, rfl⟩
  · have trap := supervisorTrap_enterSupervisor s c epc
    obtain ⟨mode, bit⟩ := delegated_eq_true_iff.mp delegated
    rw [csrRaw_delegationRegister] at bit
    rw [c.value_eq] at trap
    unfold TrapTaken
    rcases mode with mode | mode
    all_goals
      simp only [mode] at trap ⊢
      rw [if_pos bit]
      exact trap
  · have trap := machineTrap_enterMachine s c epc mpp
    rw [c.value_eq] at trap
    have bit := mt delegated_eq_true_iff.mpr (Bool.eq_false_iff.mp notDelegated)
    rw [csrRaw_delegationRegister] at bit
    unfold TrapTaken
    cases mode : s.mode with
    | user | supervisor =>
      rw [mode] at encoded
      cases encoded
      simp only [mode, reduceCtorEq, or_true, true_or, true_and] at bit ⊢
      rw [if_neg bit]
      exact trap
    | machine =>
      rw [mode] at encoded
      cases encoded
      exact trap
    | debug => simp [mode, Mode.enc] at encoded

/-- Outside Debug mode trap entry answers the trap taken. -/
theorem exists_trapTaken (c : Cause) (epc : Word) (notDebug : s.mode ≠ .debug) :
    ∃ t, trapEntry c epc s = .next t ∧ TrapTaken s t c.isInterrupt c.code epc := by
  suffices answers : ∃ t, trapEntry c epc s = .next t from answers.imp fun _ h => ⟨h, trapTaken_of_trapEntry h⟩
  by_cases delegated : s.delegated c = true
  · exact ⟨_, trapEntry_of_delegated delegated⟩
  · cases mode : s.mode with
    | user | supervisor | machine =>
      exact ⟨_, trapEntry_of_enc (Bool.eq_false_iff.mpr delegated) (congrArg Mode.enc mode)⟩
    | debug => exact absurd mode notDebug

/-- From Debug mode trap entry stops (R427). -/
theorem trapEntry_of_debug (c : Cause) (epc : Word) (debug : s.mode = .debug) :
    trapEntry c epc s = .fault .trapFromDebug := by
  simp [trapEntry, State.delegated, debug, Mode.enc]

/-- `raise` for a cause of the spec: the trap with that code, the instruction's own address saved. -/
theorem exists_trapTaken_of_raise {i : Instr} {e : ExceptionKind} (arm : exec i s = raise e s)
    (notDebug : s.mode ≠ .debug) : ∃ t, exec i s = .next t ∧ TrapTaken s t false e.code s.pcInst :=
  arm ▸ exists_trapTaken (.exception e) s.pcInst notDebug

/-- Settles O16: the table of causes is `Cause.code` written out, and the entry is `exists_trapTaken` or, from Debug,
`trapEntry_of_debug`. -/
theorem trapEntryEffect : Obligations.TrapEntryEffect := by
  unfold Obligations.TrapEntryEffect
  intro causes c epc s
  have codes : ∀ row ∈ causes, row.2 = (row.1.isInterrupt, row.1.code) := by
    unfold causes
    decide
  refine ⟨?_, fun notDebug interrupt code listed => ?_, trapEntry_of_debug c epc⟩
  · refine ⟨c.isInterrupt, c.code, ?_⟩
    rcases c with e | i
    · cases e <;> simp [causes, Cause.isInterrupt, Cause.code, ExceptionKind.code]
    · cases i <;> simp [causes, Cause.isInterrupt, Cause.code, Interrupt.code]
  · have same : (interrupt, code) = (c.isInterrupt, c.code) := codes _ listed
    obtain ⟨rfl, rfl⟩ := Prod.mk.inj same
    exact exists_trapTaken c epc notDebug

/-- Settles O17: a delegated trap goes from U or S to S, every other one to M, whose encoding is the highest. -/
theorem trapNeverLowersPrivilege : Obligations.TrapNeverLowersPrivilege := by
  intro c epc s t h
  rcases trapEntry_next h with ⟨delegated, rfl⟩ | ⟨-, mpp, encoded, rfl⟩
  · rcases delegated_mode delegated with mode | mode
    · exact ⟨0, 1, congrArg Mode.enc mode, rfl, by decide⟩
    · exact ⟨1, 1, congrArg Mode.enc mode, rfl, by decide⟩
  · exact ⟨mpp, 3, encoded, rfl, by bv_omega⟩

/-! ### The vector address -/

/-- `a & 0xFFFFFFFC` is the aligned word that contains `a`. -/
theorem and_wordMask (a : Word) : a &&& 0xFFFFFFFC#32 = alignWord a := rfl

theorem getLsbD_zero_iff (a : Word) : a.getLsbD 0 = true ↔ a.toNat % 2 = 1 := by
  simp [BitVec.getLsbD, Nat.testBit_zero]

theorem toNat_vectorAddress (tvec : Word) (code : Nat) :
    (vectorAddress tvec code).toNat =
      (tvec.toNat / 4 * 4 + if tvec.toNat % 2 = 1 then 4 * code else 0) % 2 ^ 32 := by
  rw [vectorAddress, and_wordMask, BitVec.toNat_add, toNat_alignWord]
  by_cases vectored : tvec.toNat % 2 = 1
  · rw [if_pos vectored, if_pos ((getLsbD_zero_iff tvec).mpr vectored), BitVec.toNat_ofNat, Nat.add_mod_mod,
      Nat.mul_comm code 4]
  · rw [if_neg vectored, if_neg (mt (getLsbD_zero_iff tvec).mp vectored)]
    rfl

/-- Settles O18: both summands are multiples of 4, and so is 2^32. -/
theorem vectorAddressForm : Obligations.VectorAddressForm := by
  intro tvec code
  have form := toNat_vectorAddress tvec code
  refine ⟨form, ?_⟩
  rw [form]
  split <;> omega

/-! ### SRET -/

theorem exec_sret (allowed : s.mode.atLeast 1 = true) : exec .sret s = .next s.returnFromSupervisor := if_pos allowed

/-- Settles O23: the reads of `returnFromSupervisor`, and its `mstatus` bit by bit. -/
theorem sretEffect : Obligations.SretEffect := by
  intro s mode
  have allowed : s.mode.atLeast 1 = true := by rcases mode with mode | mode <;> rw [mode] <;> rfl
  refine ⟨_, exec_sret allowed, rfl, rfl, fun k => ?_, fun a other => ?_, fun _ => rfl, fun _ => rfl, ⟨rfl, rfl, rfl⟩,
    rfl, rfl⟩
  · rw [State.csrRaw_returnFromSupervisor, if_pos rfl, getLsbD_mstatusSret]
    grind
  · rw [State.csrRaw_returnFromSupervisor, if_neg other]

/-- Settles O20: the entry put the pc in sepc, the mode in SPP and SIE in SPIE, and SRET takes them from there. -/
theorem sretUndoesSupervisorTrap : Obligations.SretUndoesSupervisorTrap := by
  intro c epc s t h supervisor
  rcases trapEntry_next h with ⟨delegated, rfl⟩ | ⟨-, mpp, -, rfl⟩
  · have trap := supervisorTrap_enterSupervisor s c epc
    refine ⟨_, exec_sret rfl, trap.sepc, ?_, ?_, fun _ => rfl, fun _ => rfl⟩
    · rw [State.returnFromSupervisor_mode, trap.spp]
      rcases delegated_mode delegated with mode | mode <;> rw [mode] <;> rfl
    · rw [State.csrRaw_returnFromSupervisor, if_pos rfl, getLsbD_mstatusSret]
      exact trap.spie
  · cases supervisor

/-! ### MRET -/

/-- The state after MRET to the mode `m` (45_system.md R374). -/
def State.returned (s : State) (m : Mode) : State :=
  ({ s with pc := s.csrRaw csrMepc, mode := m } : State).setCsrRaw csrMstatus (mstatusMret (s.csrRaw csrMstatus))

/-- MRET in Machine mode, by the mode MPP names. -/
theorem exec_mret (machine : s.mode = .machine) : exec .mret s = s.returnFromMachine :=
  if_pos (machine ▸ rfl)

theorem exec_mret_of_mode {m : Mode} (machine : s.mode = .machine)
    (named : modeOfMpp (mppField (s.csrRaw csrMstatus)) = some m) : exec .mret s = .next (s.returned m) :=
  (exec_mret machine).trans (s.returnFromMachine_of_mode named)

theorem csrRaw_returned (m : Mode) (a : CsrAddr) :
    (s.returned m).csrRaw a = if a = csrMstatus then mstatusMret (s.csrRaw csrMstatus) else s.csrRaw a :=
  State.csrRaw_setCsrRaw ..

theorem modeOfMpp_of_enc {m : Mode} {mpp : BitVec 2} (encoded : m.enc = some mpp) : modeOfMpp mpp = some m := by
  cases m <;> cases encoded <;> rfl

/-- 2 is the one value that encodes no mode (10_state.md R41). -/
theorem exists_enc_of_ne_two {mpp : BitVec 2} (legal : mpp ≠ 2#2) : ∃ m : Mode, m.enc = some mpp := by
  have values : mpp = 0 ∨ mpp = 1 ∨ mpp = 3 := by bv_omega
  rcases values with rfl | rfl | rfl
  · exact ⟨.user, rfl⟩
  · exact ⟨.supervisor, rfl⟩
  · exact ⟨.machine, rfl⟩

/-- A bit of MPP is 0 after MRET. -/
theorem getLsbD_mstatusMret_mpp (m : Word) {k : Nat} (hk : k = 11 ∨ k = 12) : (mstatusMret m).getLsbD k = false := by
  have field : ∀ j, (mppField (mstatusMret m)).getLsbD j = false := by simp [mppField_mstatusMret]
  rcases hk with rfl | rfl
  · simpa [mppField] using field 0
  · simpa [mppField] using field 1

/-- Settles O24: `exec_mret_of_mode`, the reads of `returned`, and its `mstatus` bit by bit. -/
theorem mretEffect : Obligations.MretEffect := by
  intro s machine legal
  obtain ⟨m, encoded⟩ := exists_enc_of_ne_two legal
  refine ⟨_, exec_mret_of_mode machine (modeOfMpp_of_enc encoded), rfl, encoded, fun k => ?_, fun a other => ?_,
    fun _ => rfl, fun _ => rfl, ⟨rfl, rfl, rfl⟩, rfl, rfl⟩
  · rw [csrRaw_returned, if_pos rfl]
    by_cases mpp : k = 11 ∨ k = 12
    · rw [getLsbD_mstatusMret_mpp _ mpp]
      grind
    · rw [getLsbD_mstatusMret _ _ (mt .inl mpp) (mt .inr mpp)]
      grind
  · rw [csrRaw_returned, if_neg other]

/-- Settles O25: 2 names no mode. -/
theorem mretStopsOnInvalidMpp : Obligations.MretStopsOnInvalidMpp := by
  intro s machine invalid
  have unnamed : modeOfMpp (mppField (s.csrRaw csrMstatus)) = none := congrArg modeOfMpp invalid
  rw [exec_mret machine, State.returnFromMachine, unnamed]

/-- Settles O19: the entry put the pc in mepc, the mode in MPP and MIE in MPIE, and MRET takes them from there. -/
theorem mretUndoesMachineTrap : Obligations.MretUndoesMachineTrap := by
  intro c epc s t h machine
  rcases trapEntry_next h with ⟨-, rfl⟩ | ⟨-, mpp, encoded, rfl⟩
  · cases machine
  · have trap := machineTrap_enterMachine s c epc mpp
    have named : modeOfMpp (mppField ((s.enterMachine c epc mpp).csrRaw csrMstatus)) = some s.mode :=
      (congrArg modeOfMpp trap.mpp).trans (modeOfMpp_of_enc encoded)
    refine ⟨_, exec_mret_of_mode machine named, trap.mepc, rfl, ?_, fun _ => rfl, fun _ => rfl⟩
    rw [csrRaw_returned, if_pos rfl, getLsbD_mstatusMret _ _ (by decide) (by decide)]
    exact trap.mpie

/-! ### The instructions that trap -/

/-- Settles O26: where the mode does not reach the level, each return is `raise`. -/
theorem returnsNeedPrivilege : Obligations.ReturnsNeedPrivilege := by
  intro s
  refine ⟨fun user => ?_, fun below => ?_⟩
  · have arm : exec .sret s = raise .illegalInstruction s := if_neg (by rw [user]; decide)
    exact exists_trapTaken_of_raise arm (by rw [user]; decide)
  · have arm : exec .mret s = raise .illegalInstruction s := if_neg (by rcases below with h | h <;> rw [h] <;> decide)
    exact exists_trapTaken_of_raise arm (by rcases below with h | h <;> rw [h] <;> decide)

/-- Settles O21: each arm is `raise` of the exception the mode gives it. -/
theorem callAndBreakTrap : Obligations.CallAndBreakTrap := by
  intro s
  refine ⟨fun user => ?_, fun supervisor => ?_, fun machine => ?_, exists_trapTaken_of_raise (e := .breakpoint) rfl⟩
  · have arm : exec .ecall s = raise .environmentCallFromU s := by simp only [exec, execEcall, user]
    exact exists_trapTaken_of_raise arm (by rw [user]; decide)
  · have arm : exec .ecall s = raise .environmentCallFromS s := by simp only [exec, execEcall, supervisor]
    exact exists_trapTaken_of_raise arm (by rw [supervisor]; decide)
  · have arm : exec .ecall s = raise .environmentCallFromM s := by simp only [exec, execEcall, machine]
    exact exists_trapTaken_of_raise arm (by rw [machine]; decide)

theorem exec_uret (s : State) : exec .uret s = .next (haltUnimplemented (s.setPc s.pcInst)) := rfl

/-- Settles O22: URET is the write of the pc and of the status. -/
theorem uretHaltsAtItself : Obligations.UretHaltsAtItself := fun s =>
  ⟨_, exec_uret s, rfl, rfl, rfl, rfl, fun _ => rfl, fun _ => rfl, fun _ => rfl, rfl, rfl, rfl⟩

end Sys2Proof.Machine
end

section
/-! PROOFS. The step (spec/60_exceptions.md R400): what a core that fetches does, what every step does to the inputs,
and where a step stops. -/

namespace Sys2Proof.Machine

variable {s t : State}

/-! ### A core that fetches, and a halted core -/

/-- A fetched word that is no instruction raises IllegalInstruction after the latch and the advance (30_encoding.md
R149). -/
theorem step_of_reject {e : Reject} (fetches : FetchesNext s) (h : decodeWord s.fetchWord = .error e) :
    step s = raise .illegalInstruction s.pollIrq.advance := by
  obtain ⟨running, noInterrupt⟩ := fetches
  rw [step_of_fetch running noInterrupt, executeNext, s.fetchWord_pollIrq, h]

theorem exists_trapTaken_of_reject {e : Reject} (fetches : FetchesNext s) (notDebug : s.mode ≠ .debug)
    (h : decodeWord s.fetchWord = .error e) :
    ∃ t, step s = .next t ∧ TrapTaken s.pollIrq.advance t false 2 s.pc := by
  rw [step_of_reject fetches h]
  exact exists_trapTaken (.exception .illegalInstruction) s.pc notDebug

/-- Settles O6: the latch and the advance are the record update of the statement. -/
theorem stepRunsDecodedInstruction : Obligations.StepRunsDecodedInstruction := fun _ _ => step_of_decode

/-- Settles O7: a rejected word is `raise`, and `raise` outside Debug is the trap taken. -/
theorem rejectedWordTraps : Obligations.RejectedWordTraps := fun _ _ => exists_trapTaken_of_reject

/-- Settles O10. A halted core takes none of the phases of a step. -/
theorem haltedCoreStaysPut : Obligations.HaltedCoreStaysPut := fun _ => step_of_halted

/-- Placing a word changes neither the status nor what the latch finds pending. -/
theorem fetchesNext_withFetchWord (fetches : FetchesNext s) (nbits w : Nat) : FetchesNext (s.withFetchWord nbits w) :=
  fetches

/-- Settles O8: the placed word is what the next fetch reads. -/
theorem fetchWordIsRun : Obligations.FetchWordIsRun := by
  intro s w i fetches backed decoded
  have fetched : (s.withFetchWord 32 w).fetchWord = tableWord 32 w := fetchWord_pollIrq_withFetchWord 32 w backed
  exact step_of_decode (fetchesNext_withFetchWord fetches 32 w) (fetched ▸ decodeTableWord_eq_some decoded)

/-! ### The latch and an interrupt -/

/-- The latch writes mip alone (R406). -/
theorem csrRaw_pollIrq_of_ne (s : State) {a : CsrAddr} (other : a ≠ csrMip) : s.pollIrq.csrRaw a = s.csrRaw a := by
  rw [State.csrRaw_pollIrq, if_neg (fun h => other h.2)]

/-- The state an interrupt's trap is taken from: the latched state with its bit of mip cleared (R410). -/
def State.acknowledged (s : State) (i : Interrupt) : State :=
  s.pollIrq.setCsrRaw csrMip (setBit (s.pollIrq.csrRaw csrMip) i.code false)

/-- A step that takes an interrupt is trap entry from the acknowledged state, the pc saved. -/
theorem step_of_deliverable {i : Interrupt} (running : s.status = .run) (pending : s.pollIrq.deliverable = some i) :
    step s = trapEntry (.interrupt i) s.pc (s.acknowledged i) :=
  step_of_interrupt running pending

/-! ### What every step leaves alone -/

/-- No update of an instruction changes `MEM_SIZE` or the answers to come. -/
theorem Effect.inputs (h : Effect s t) : t.memSize = s.memSize ∧ t.irqInputs = s.irqInputs := by
  cases h with
  | csr => simp
  | trap e t raised =>
    obtain ⟨-, -, memSize, irqInputs, -⟩ := trapEntry_keeps raised
    exact ⟨memSize, irqInputs⟩
  | mret t _ returned =>
    obtain ⟨m, -, rfl⟩ := s.returnFromMachine_next returned
    exact ⟨rfl, rfl⟩
  | _ => exact ⟨rfl, rfl⟩

/-- Settles O9: the latch uses up the one answer, and nothing after it uses another. -/
theorem stepUsesOneIrqAnswer : Obligations.StepUsesOneIrqAnswer := by
  intro s t running h
  rcases step_next h with ⟨halted, -⟩ | ⟨-, i, -, taken⟩ | ⟨-, -, ⟨i, -, executed⟩ | ⟨e, -, raised⟩⟩
  · exact absurd running halted
  · obtain ⟨-, -, memSize, irqInputs, -⟩ := trapEntry_keeps taken
    exact ⟨irqInputs, memSize⟩
  · obtain ⟨memSize, irqInputs⟩ := (exec_next executed).inputs
    exact ⟨irqInputs, memSize⟩
  · obtain ⟨-, -, memSize, irqInputs, -⟩ := trapEntry_keeps raised
    exact ⟨irqInputs, memSize⟩

/-! ### Where a step stops

Taking a trap stops in Debug mode alone (R427), and MRET with MPP = 2 stops (45_system.md R374); nothing else does. -/

/-- The operation answers a next state, or stops because the mode is Debug. -/
def AnswersUnlessDebug (m : Mode) (r : Result) : Prop :=
  (∃ t, r = .next t) ∨ (m = .debug ∧ r = .fault .trapFromDebug)

theorem answersUnlessDebug_trapEntry (c : Cause) (epc : Word) (s : State) :
    AnswersUnlessDebug s.mode (trapEntry c epc s) := by
  by_cases debug : s.mode = .debug
  · exact .inr ⟨debug, trapEntry_of_debug c epc debug⟩
  · obtain ⟨t, answered, -⟩ := exists_trapTaken c epc debug
    exact .inl ⟨t, answered⟩

theorem answersUnlessDebug_csrInstr (f : Word → Word → Word) (rd : Reg) (a : CsrAddr) (src : Word) (s : State) :
    AnswersUnlessDebug s.mode (csrInstr f rd a src s) := by
  unfold csrInstr
  split
  · exact .inl ⟨_, rfl⟩
  · exact answersUnlessDebug_trapEntry ..

theorem answersUnlessDebug_execEcall (s : State) : AnswersUnlessDebug s.mode (execEcall s) := by
  unfold execEcall
  split
  case h_4 debug => exact .inr ⟨debug, rfl⟩
  all_goals exact answersUnlessDebug_trapEntry ..

theorem answersUnlessDebug_execSret (s : State) : AnswersUnlessDebug s.mode (execSret s) := by
  unfold execSret
  split
  · exact .inl ⟨_, rfl⟩
  · exact answersUnlessDebug_trapEntry ..

/-- Every instruction but MRET. -/
theorem answersUnlessDebug_exec {i : Instr} (notMret : i ≠ .mret) (s : State) :
    AnswersUnlessDebug s.mode (exec i s) := by
  cases i with
  | csrrw | csrrs | csrrc | csrrwi | csrrsi | csrrci => exact answersUnlessDebug_csrInstr ..
  | ecall => exact answersUnlessDebug_execEcall s
  | ebreak => exact answersUnlessDebug_trapEntry ..
  | sret => exact answersUnlessDebug_execSret s
  | mret => exact absurd rfl notMret
  | _ => exact .inl ⟨_, rfl⟩

theorem atLeast_three_iff (m : Mode) : m.atLeast 3 = true ↔ m = .machine := by
  cases m <;> decide

/-- MRET: also the stop on MPP = 2 in Machine mode. -/
theorem execMret_outcome (s : State) : AnswersUnlessDebug s.mode (execMret s) ∨
    (s.mode = .machine ∧ mppField (s.csrRaw csrMstatus) = 2#2 ∧ execMret s = .fault .mretInvalidMpp) := by
  unfold execMret
  split
  · next allowed =>
    have machine := (atLeast_three_iff s.mode).mp allowed
    by_cases invalid : mppField (s.csrRaw csrMstatus) = 2#2
    · exact .inr ⟨machine, invalid, (exec_mret machine).symm.trans (mretStopsOnInvalidMpp s machine invalid)⟩
    · obtain ⟨m, encoded⟩ := exists_enc_of_ne_two invalid
      exact .inl (.inl ⟨_, s.returnFromMachine_of_mode (modeOfMpp_of_enc encoded)⟩)
  · exact .inl (answersUnlessDebug_trapEntry ..)

/-- Everything a step can answer: a next state, the stop of a trap from Debug, or MRET's on MPP = 2. The latch
leaves mode and `mstatus` alone. -/
theorem step_outcome (s : State) : AnswersUnlessDebug s.mode (step s) ∨
    (decodeWord s.fetchWord = .ok .mret ∧ s.mode = .machine ∧ mppField (s.csrRaw csrMstatus) = 2#2 ∧
      step s = .fault .mretInvalidMpp) := by
  by_cases running : s.status = .run
  · cases pending : s.pollIrq.deliverable with
    | some i =>
      rw [step_of_deliverable running pending]
      exact .inl (answersUnlessDebug_trapEntry _ _ (s.acknowledged i))
    | none =>
      cases decoded : decodeWord s.fetchWord with
      | error e =>
        rw [step_of_reject ⟨running, pending⟩ decoded]
        exact .inl (answersUnlessDebug_trapEntry _ _ s.pollIrq.advance)
      | ok i =>
        rw [step_of_decode ⟨running, pending⟩ decoded]
        by_cases isMret : i = .mret
        · subst isMret
          rcases execMret_outcome s.pollIrq.advance with answers | ⟨machine, invalid, stops⟩
          · exact .inl answers
          · rw [State.csrRaw_advance, csrRaw_pollIrq_of_ne s (by decide)] at invalid
            exact .inr ⟨rfl, machine, invalid, stops⟩
        · exact .inl (answersUnlessDebug_exec isMret s.pollIrq.advance)
  · exact .inl (.inl ⟨s, step_of_halted running⟩)

/-- Settles O11: none of the outcomes of `step_outcome` is a refusal. -/
theorem stepIsNeverRefused : Obligations.StepIsNeverRefused := by
  intro s r refused
  rcases step_outcome s with (⟨t, h⟩ | ⟨-, h⟩) | ⟨-, -, -, h⟩ <;> cases refused.symm.trans h

/-- Settles O54: under the invariant the mode is not Debug, so a stop is MRET's. -/
theorem onlyInvalidMretStops : Obligations.OnlyInvalidMretStops := by
  intro s f inv stops
  rcases step_outcome s with (⟨t, h⟩ | ⟨debug, -⟩) | ⟨decoded, machine, invalid, h⟩
  · cases stops.symm.trans h
  · exact absurd debug inv.mode
  · cases stops.symm.trans h
    exact ⟨rfl, machine, decoded, invalid⟩

end Sys2Proof.Machine
end

section
/-! PROOFS. Interrupts (spec/60_exceptions.md R406 to R410): the latch, the selection, the gate and the delivery. -/

namespace Sys2Proof.Machine

/-- The latch sets bit 9 of mip on a nonzero answer and no other bit (R406). -/
theorem getLsbD_mip_pollIrq (s : State) (k : Nat) :
    (s.pollIrq.csrRaw csrMip).getLsbD k =
      if k = 9 ∧ s.irqInputs.headD 0#32 ≠ 0#32 then true else (s.csrRaw csrMip).getLsbD k := by
  rw [State.csrRaw_pollIrq]
  by_cases answered : s.irq = 0#32
  · rw [if_neg (fun h => h.1 answered), if_neg (fun h => h.2 answered)]
  · rw [if_pos ⟨answered, rfl⟩, getLsbD_setBit _ _ _ (by decide)]
    by_cases bit : k = 9
    · rw [if_pos bit, if_pos ⟨bit, answered⟩]
    · rw [if_neg bit, if_neg (fun h => bit h.1)]

/-- Settles O12: the bits of mip are `getLsbD_mip_pollIrq`; the latch writes nothing else but the answers. -/
theorem latchSetsOnlySeip : Obligations.LatchSetsOnlySeip := fun s =>
  ⟨getLsbD_mip_pollIrq s, fun _ => csrRaw_pollIrq_of_ne s, rfl, fun _ => rfl, fun _ => rfl, ⟨rfl, rfl, rfl⟩, rfl, rfl,
    rfl⟩

theorem eligible_iff (s : State) (i : Interrupt) : s.eligible i = true ↔
    (s.csrRaw 0x344#12).getLsbD i.code = true ∧ (s.csrRaw 0x304#12).getLsbD i.code = true :=
  Bool.and_eq_true_iff

/-- Settles O13: selection is the first eligible member of the list of R408. -/
theorem selectsFirstEligibleInterrupt : Obligations.SelectsFirstEligibleInterrupt := by
  intro s
  simp only [← eligible_iff]
  refine ⟨rfl, fun i => ?_, List.find?_eq_none⟩
  rw [State.selected, List.find?_eq_some_iff_append]
  simp only [Bool.not_eq_true', ← Bool.not_eq_true]
  exact ⟨fun ⟨itself, before, after, order, earlier⟩ => ⟨before, after, order, itself, earlier⟩,
    fun ⟨before, after, order, itself, earlier⟩ => ⟨itself, before, after, order, earlier⟩⟩

/-- Settles O14: `deliverable` is `selected` behind the gate of the mode. -/
theorem gateByMode : Obligations.GateByMode := fun s =>
  ⟨fun machine => by rw [State.deliverable, State.gate, machine],
    fun supervisor => by rw [State.deliverable, State.gate, supervisor],
    fun user => by rw [State.deliverable, State.gate, user]; rfl⟩

theorem Interrupt.code_lt (i : Interrupt) : i.code < 32 := by
  cases i <;> decide

theorem getLsbD_mip_acknowledged (s : State) (i : Interrupt) (k : Nat) :
    ((s.acknowledged i).csrRaw csrMip).getLsbD k =
      if k = i.code then false else (s.pollIrq.csrRaw csrMip).getLsbD k := by
  rw [State.acknowledged, State.csrRaw_setCsrRaw_same, getLsbD_setBit _ _ _ i.code_lt]

theorem csrRaw_acknowledged_of_ne (s : State) (i : Interrupt) {a : CsrAddr} (other : a ≠ csrMip) :
    (s.acknowledged i).csrRaw a = s.csrRaw a := by
  rw [State.acknowledged, State.csrRaw_setCsrRaw, if_neg other, csrRaw_pollIrq_of_ne s other]

/-- Settles O15: the step is trap entry from the acknowledged state. -/
theorem deliverableInterruptIsTaken : Obligations.DeliverableInterruptIsTaken := by
  intro s i running notDebug pending
  obtain ⟨t, answered, taken⟩ := exists_trapTaken (s := s.acknowledged i) (.interrupt i) s.pc notDebug
  refine ⟨s.acknowledged i, t, (step_of_deliverable running pending).trans answered, taken,
    getLsbD_mip_acknowledged s i, fun _ => csrRaw_acknowledged_of_ne s i, fun _ => rfl, fun _ => rfl, ⟨rfl, rfl, rfl⟩,
    ⟨rfl, rfl, rfl⟩, rfl, rfl, rfl, rfl⟩

end Sys2Proof.Machine
end

section
/-! PROOFS. What every step keeps: the CSRs that are never written (spec/44_csr.md R340) and the invariant
(spec/10_state.md, spec/20_memory.md), from reset and boot on (spec/70_reset_and_hazards.md R470 to R473). -/

namespace Sys2Proof.Machine

variable {s t : State}

/-- What holds of the latched state, and is kept by a write of mip, by the advance, by trap entry and by every update
of an instruction, holds after a step (60_exceptions.md R400). -/
theorem step_keeps {P : State → Prop} (h : step s = .next t) (start : P s) (latched : P s.pollIrq)
    (mip : ∀ u v, P u → P (u.setCsrRaw csrMip v)) (advance : ∀ u, P u → P u.advance)
    (trap : ∀ c epc u v, trapEntry c epc u = .next v → P u → P v) (effect : ∀ u v, Effect u v → P u → P v) : P t := by
  rcases step_next h with ⟨-, rfl⟩ | ⟨-, i, -, taken⟩ | ⟨-, -, ⟨i, -, executed⟩ | ⟨e, -, raised⟩⟩
  · exact start
  · exact trap _ _ _ _ taken (mip _ _ latched)
  · exact effect _ _ (exec_next executed) (advance _ latched)
  · exact trap _ _ _ _ raised (advance _ latched)

/-! ### The CSRs no step writes -/

/-- The addresses whose storage is never written: the fixed registers and the views (44_csr.md R340; 10_state.md
R73). -/
abbrev CsrUnwritten (a : CsrAddr) : Prop := a ∈ idRegisters ∨ a = csrMisa ∨ a ∈ viewRegisters

section

variable {a : CsrAddr} (ha : CsrUnwritten a)
include ha

theorem CsrUnwritten.ne {b : CsrAddr} (hb : ¬ CsrUnwritten b) : a ≠ b := fun h => hb (h ▸ ha)

theorem csrRaw_setCsrRaw_unwritten {b : CsrAddr} (hb : ¬ CsrUnwritten b) (v : Word) :
    (s.setCsrRaw b v).csrRaw a = s.csrRaw a := by
  rw [State.csrRaw_setCsrRaw, if_neg (ha.ne hb)]

theorem csrRaw_csrWrite_unwritten (b : CsrAddr) (v : Word) : (s.csrWrite b v).csrRaw a = s.csrRaw a := by
  rcases s.csrWrite_cases b v with same | ⟨b', w, id, misa, view, write⟩
  · rw [same]
  · rw [write, csrRaw_setCsrRaw_unwritten ha (by simp only [CsrUnwritten, id, misa, view, or_self, not_false_eq_true])]

theorem csrRaw_trapEntry_unwritten {c : Cause} {epc : Word} (h : trapEntry c epc s = .next t) :
    t.csrRaw a = s.csrRaw a := by
  apply csrRaw_of_trapEntry h
  intro written
  revert ha
  fin_cases written <;> decide

theorem Effect.csrRaw_unwritten (h : Effect s t) : t.csrRaw a = s.csrRaw a := by
  cases h with
  | csr rd b v => exact csrRaw_csrWrite_unwritten ha b v
  | trap e t raised => exact csrRaw_trapEntry_unwritten ha raised
  | sret => rw [State.csrRaw_returnFromSupervisor, if_neg (ha.ne (by decide))]
  | mret t _ returned =>
    obtain ⟨m, -, rfl⟩ := s.returnFromMachine_next returned
    exact csrRaw_setCsrRaw_unwritten ha (by decide) _
  | _ => rfl

theorem csrRaw_step_unwritten (h : step s = .next t) : t.csrRaw a = s.csrRaw a := by
  apply step_keeps (P := fun u => u.csrRaw a = s.csrRaw a) h rfl
  · exact csrRaw_pollIrq_of_ne s (ha.ne (by decide))
  · exact fun u v => (csrRaw_setCsrRaw_unwritten ha (by decide) v).trans
  · exact fun u => id
  · exact fun c epc u v taken => (csrRaw_trapEntry_unwritten ha taken).trans
  · exact fun u v done => (done.csrRaw_unwritten ha).trans

end

/-- Settles O46: the statement's addresses are the unwritten ones. -/
theorem fixedCsrsNeverChange : Obligations.FixedCsrsNeverChange := by
  intro s t h a fixed
  refine csrRaw_step_unwritten ?_ h
  rcases fixed with (rfl | rfl | rfl | rfl | rfl) | rfl | rfl | rfl <;> decide

/-! ### The invariant and the operations -/

namespace Inv

variable (h : Inv s)
include h

/-- The invariant speaks of `MEM_SIZE`, the memory, the bank and the mode alone. -/
theorem of_memory (memSize : t.memSize = s.memSize) (csr : t.csr = s.csr) (mode : t.mode ≠ .debug)
    (wf : Memory.wf t.mem) (below : ∀ c ∈ t.mem, c.1 < s.memSize) : Inv t := by
  have raw : ∀ a, t.csrRaw a = s.csrRaw a := fun a => by rw [State.csrRaw, State.csrRaw, csr]
  exact {
    memSize := memSize ▸ h.memSize
    memory := wf
    memoryBelow := memSize ▸ below
    bank := csr ▸ h.bank
    bankBelow := csr ▸ h.bankBelow
    misa := (raw _).trans h.misa
    identity := fun a ha => (raw a).trans (h.identity a ha)
    views := fun a ha => (raw a).trans (h.views a ha)
    mode := mode }

theorem congr (memSize : t.memSize = s.memSize) (mem : t.mem = s.mem) (csr : t.csr = s.csr) (mode : t.mode ≠ .debug) :
    Inv t :=
  h.of_memory memSize csr mode (mem ▸ h.memory) (mem ▸ h.memoryBelow)

theorem setCsrRaw {a : CsrAddr} (ha : ¬ CsrUnwritten a) (v : Word) : Inv (s.setCsrRaw a v) where
  memSize := h.memSize
  memory := h.memory
  memoryBelow := h.memoryBelow
  bank := setCsrRaw_wf a v h.bank
  bankBelow := setCsrRaw_below a v h.bankBelow
  misa := (csrRaw_setCsrRaw_unwritten (.inr (.inl rfl)) ha v).trans h.misa
  identity b hb := (csrRaw_setCsrRaw_unwritten (.inl hb) ha v).trans (h.identity b hb)
  views b hb := (csrRaw_setCsrRaw_unwritten (.inr (.inr hb)) ha v).trans (h.views b hb)
  mode := h.mode

theorem csrWrite (a : CsrAddr) (v : Word) : Inv (s.csrWrite a v) := by
  rcases s.csrWrite_cases a v with same | ⟨b, w, id, misa, view, write⟩
  · rwa [same]
  · rw [write]
    exact h.setCsrRaw (by simp only [CsrUnwritten, id, misa, view, or_self, not_false_eq_true]) w

/-- Both branches write four registers, none of them fixed, on a state in S or M. -/
theorem trapEntry {c : Cause} {epc : Word} (taken : trapEntry c epc s = .next t) : Inv t := by
  rcases trapEntry_next taken with ⟨-, rfl⟩ | ⟨-, mpp, -, rfl⟩
  · have entered :
        Inv { s with prevMode := s.mode, mode := .supervisor, pc := vectorAddress (s.csrRaw csrStvec) c.code } :=
      h.congr rfl rfl rfl nofun
    exact (((entered.setCsrRaw (by decide) _).setCsrRaw (by decide) _).setCsrRaw (by decide) _).setCsrRaw (by decide) _
  · have entered :
        Inv { s with prevMode := s.mode, mode := .machine, pc := vectorAddress (s.csrRaw csrMtvec) c.code } :=
      h.congr rfl rfl rfl nofun
    exact (((entered.setCsrRaw (by decide) _).setCsrRaw (by decide) _).setCsrRaw (by decide) _).setCsrRaw (by decide) _

theorem returnFromSupervisor : Inv s.returnFromSupervisor := by
  have notDebug : s.returnFromSupervisor.mode ≠ .debug := by
    rw [State.returnFromSupervisor_mode]
    split <;> decide
  exact (h.setCsrRaw (a := csrMstatus) (by decide) _).congr rfl rfl rfl notDebug

theorem returnFromMachine (returned : s.returnFromMachine = .next t) : Inv t := by
  obtain ⟨m, named, rfl⟩ := s.returnFromMachine_next returned
  have notDebug : m ≠ .debug := by
    rcases modeOfMpp_eq_some named with rfl | rfl | rfl <;> decide
  exact (h.setCsrRaw (a := csrMstatus) (by decide) _).congr rfl rfl rfl notDebug

theorem effect (done : Effect s t) : Inv t := by
  cases done with
  | none => exact h
  | register | jump | link | halt => exact h.congr rfl rfl rfl h.mode
  | store8 a v => exact h.of_memory rfl rfl h.mode (write8_wf a v h.memory) (write8_below a v h.memoryBelow)
  | store16 a v =>
    exact h.of_memory rfl rfl h.mode (write16_wf a v h.memory) (write16_below h.memSize a v h.memoryBelow)
  | store32 a v =>
    exact h.of_memory rfl rfl h.mode (write32_wf a v h.memory) (write32_below h.memSize a v h.memoryBelow)
  | csr rd a v => exact (h.csrWrite a v).congr rfl rfl rfl (h.csrWrite a v).mode
  | trap e t raised => exact h.trapEntry raised
  | sret => exact h.returnFromSupervisor
  | mret t _ returned => exact h.returnFromMachine returned

theorem pollIrq : Inv s.pollIrq := by
  by_cases answered : s.irq = 0#32
  · exact h.congr rfl rfl (by rw [State.pollIrq_csr, if_pos answered]) h.mode
  · exact (h.setCsrRaw (a := csrMip) (by decide) _).congr rfl rfl (by rw [State.pollIrq_csr, if_neg answered]) h.mode

theorem step (stepped : step s = .next t) : Inv t :=
  step_keeps stepped h h.pollIrq (fun _ v inv => inv.setCsrRaw (by decide) v)
    (fun _ inv => inv.congr rfl rfl rfl inv.mode) (fun _ _ _ _ taken inv => inv.trapEntry taken)
    (fun _ _ done inv => inv.effect done)

end Inv

/-- Settles O52: each phase of a step keeps the invariant. -/
theorem stepKeepsInvariant : Obligations.StepKeepsInvariant := fun _ _ => Inv.step

/-- A run that goes on for one more step takes it first. -/
theorem run_succ_next {M : Host.Core} {k : Nat} {s t : M.State} (h : M.run (k + 1) s = .next t) :
    ∃ u, M.step s = .next u ∧ M.run k u = .next t := by
  unfold Host.Core.run at h
  split at h
  · next u stepped => exact ⟨u, stepped, h⟩
  · cases h
  · cases h

/-- Settles O53, by induction on the number of steps. -/
theorem runKeepsInvariant : Obligations.RunKeepsInvariant := by
  intro k
  induction k with
  | zero =>
    intro s t inv h
    cases h
    exact inv
  | succ k ih =>
    intro s t inv h
    obtain ⟨u, stepped, rest⟩ := run_succ_next h
    exact ih u t (inv.step stepped) rest

/-! ### Reset and boot -/

/-- Settles O48: reset writes the core's own fields alone. -/
theorem resetEndsHaltsAndKeepsMemory : Obligations.ResetEndsHaltsAndKeepsMemory :=
  ⟨fun _ _ => ⟨rfl, fun _ => rfl, rfl, rfl⟩, rfl⟩

/-- The invariant with the bank of reset: what is left to say is about the memory and the mode. -/
theorem inv_of_resetBank (bank : s.csr = resetBank) (memSize : Config.ValidMemSize s.memSize) (wf : Memory.wf s.mem)
    (below : ∀ c ∈ s.mem, c.1 < s.memSize) (mode : s.mode ≠ .debug) : Inv s := by
  have raw : ∀ a, s.csrRaw a = if a = csrMisa then misaValue else 0#32 := fun a => by
    rw [State.csrRaw, bank, sparseRead_resetBank]
  exact {
    memSize := memSize
    memory := wf
    memoryBelow := below
    bank := by rw [bank]; decide
    bankBelow := by rw [bank]; decide
    misa := raw csrMisa
    identity := fun a ha => (raw a).trans (if_neg (by rintro rfl; revert ha; decide))
    views := fun a ha => (raw a).trans (if_neg (by rintro rfl; revert ha; decide))
    mode := mode }

/-- Settles O50: no memory is listed and the mode is Machine. -/
theorem invariantAtReset : Obligations.InvariantAtReset :=
  inv_of_resetBank rfl (by decide) (by decide) (by decide) (by decide)

/-- The loader writes the image pair by pair (R473). -/
theorem loadImage_cons (s : State) (c : Host.Cell) (image : List Host.Cell) :
    s.loadImage (c :: image) =
      (if c.1 < 2 ^ 32 then s.write8 (BitVec.ofNat 32 c.1) c.2 else s).loadImage image := rfl

theorem Inv.loadImage (h : Inv s) (image : List Host.Cell) : Inv (s.loadImage image) := by
  induction image generalizing s with
  | nil => exact h
  | cons c image ih =>
    rw [loadImage_cons]
    apply ih
    split
    · exact h.effect (.store8 _ _)
    · exact h

theorem Inv.applyReset (h : Inv s) (entry : Word) : Inv (s.applyReset entry) :=
  inv_of_resetBank rfl h.memSize h.memory h.memoryBelow (by simp)

theorem inv_constructed {n : Nat} (memSize : Config.ValidMemSize n) (irqs : List Word) :
    Inv (State.constructed n irqs) :=
  inv_of_resetBank rfl memSize ⟨.nil, nofun⟩ nofun nofun

/-- Settles O51: construction meets the invariant, and loading and reset keep it. -/
theorem invariantAtBoot : Obligations.InvariantAtBoot := fun _ image entry irqs memSize =>
  ((inv_constructed memSize irqs).loadImage image).applyReset entry

/-! ### The image in memory -/

/-- The loader's write of one pair changes no byte at another address. -/
theorem read8_loadImage_of_not_mem {image : List Host.Cell} {a : Word} (absent : a.toNat ∉ image.map Prod.fst) :
    (s.loadImage image).read8 a = s.read8 a := by
  induction image generalizing s with
  | nil => rfl
  | cons c image ih =>
    obtain ⟨head, tail⟩ : a.toNat ≠ c.1 ∧ a.toNat ∉ image.map Prod.fst := by simpa using absent
    rw [loadImage_cons, ih tail]
    split
    · next fits =>
      have other : a ≠ BitVec.ofNat 32 c.1 := fun e => head (by rw [e, BitVec.toNat_ofNat, Nat.mod_eq_of_lt fits])
      rw [read8_write8, if_neg (fun h => other h.2)]
    · rfl

/-- A pair of an image of distinct backed addresses reads back: it is written, and no later pair writes its address. -/
theorem read8_loadImage_of_mem {image : List Host.Cell} (small : s.memSize ≤ 2 ^ 32)
    (distinct : (image.map Prod.fst).Nodup) (backed : ∀ c ∈ image, c.1 < s.memSize) {c : Host.Cell} (hc : c ∈ image) :
    (s.loadImage image).read8 (BitVec.ofNat 32 c.1) = c.2 := by
  induction image generalizing s with
  | nil => cases hc
  | cons d image ih =>
    obtain ⟨head, tail⟩ := List.nodup_cons.mp distinct
    have hd := backed d (by simp)
    have toNat : (BitVec.ofNat 32 d.1).toNat = d.1 := Nat.mod_eq_of_lt (by omega)
    rw [loadImage_cons, if_pos (by omega)]
    rcases List.mem_cons.mp hc with rfl | hc
    · have backed : s.backed (BitVec.ofNat 32 c.1) = true := (backed_iff _ _).mpr (toNat.symm ▸ hd)
      rw [read8_loadImage_of_not_mem (toNat.symm ▸ head), read8_write8, if_pos ⟨backed, rfl⟩]
    · exact ih small tail (fun e he => backed e (by simp [he])) hc

theorem read8_boot (n : Nat) (image : List Host.Cell) (entry : Word) (irqs : List Word) (a : Word) :
    (State.boot n image entry irqs).read8 a = ((State.constructed n irqs).loadImage image).read8 a := rfl

theorem read8_constructed (n : Nat) (irqs : List Word) (a : Word) : (State.constructed n irqs).read8 a = 0#8 :=
  ite_self _

/-- Settles O49: reset keeps what was loaded into memory that was all 0. -/
theorem bootedMemoryHoldsImage : Obligations.BootedMemoryHoldsImage := by
  intro n image entry irqs ⟨_, small⟩ distinct backed
  refine ⟨fun c hc => ?_, fun a absent => ?_⟩
  · exact read8_loadImage_of_mem (s := State.constructed n irqs) small distinct backed hc
  · rw [read8_boot, read8_loadImage_of_not_mem absent, read8_constructed]

end Sys2Proof.Machine
end

section
/-! PROOFS. Loads, stores and fetches (spec/40_loads_stores.md R200 to R209; spec/20_memory.md R102 to R118), and the
instructions that do nothing. -/

namespace Sys2Proof.Machine

variable {s : State} {i : Instr} {rd : Reg}

/-- Settles O28: each arm answers the state it is given. -/
theorem otherNoOpsChangeNothing : Obligations.OtherNoOpsChangeNothing := fun _ _ _ _ _ => ⟨rfl, rfl, rfl⟩

/-! ### Aligned and unbacked addresses -/

/-- `a & 0xFFFFFFFE` is the aligned halfword that contains `a`. -/
theorem and_halfMask (a : Word) : a &&& 0xFFFFFFFE#32 = alignHalf a := rfl

theorem alignWord_of_aligned {a : Word} (aligned : a.toNat % 4 = 0) : alignWord a = a := by
  apply BitVec.eq_of_toNat_eq
  rw [toNat_alignWord]
  omega

theorem alignHalf_of_aligned {a : Word} (aligned : a.toNat % 2 = 0) : alignHalf a = a := by
  apply BitVec.eq_of_toNat_eq
  rw [toNat_alignHalf]
  omega

theorem alignWord_alignWord (a : Word) : alignWord (alignWord a) = alignWord a := by
  apply alignWord_of_aligned
  rw [toNat_alignWord]
  omega

/-- Every width reads 0 at or above `MEM_SIZE` (20_memory.md R102). -/
theorem read_of_unbacked {a : Word} (unbacked : s.memSize ≤ a.toNat) :
    s.read8 a = 0#8 ∧ s.read16 a = 0#16 ∧ s.read32 a = 0#32 := by
  have h : ¬ s.backed a = true := by rw [backed_iff]; omega
  exact ⟨if_neg h, if_neg h, if_neg h⟩

/-- A word read goes by the aligned word alone: both addresses are backed or neither is. -/
theorem read32_alignWord (valid : Config.ValidMemSize s.memSize) (a : Word) : s.read32 (alignWord a) = s.read32 a := by
  rw [read32_eq_bytes valid, read32_eq_bytes valid, alignWord_alignWord]

/-! ### Loads -/

/-- An instruction whose arm is one write of rd. -/
theorem registerResult_of_setX {v w : Word} (arm : exec i s = .next (s.setX rd v)) (value : v = w) :
    ∃ t, exec i s = .next t ∧ RegisterResult s t rd w :=
  ⟨_, arm, registerResult_setX value⟩

/-- Settles O29: each load is one write of rd, with what the bus reads, byte by byte. -/
theorem loadResults : Obligations.LoadResults := by
  intro s rd rs1 imm valid ea h w half word
  have halfRead : s.read16 ea = half := read16_eq_bytes valid ea
  have wordRead : s.read32 ea = word := read32_eq_bytes valid ea
  refine ⟨registerResult_of_setX rfl rfl, registerResult_of_setX rfl (congrArg sext halfRead),
    registerResult_of_setX rfl wordRead, registerResult_of_setX rfl rfl,
    registerResult_of_setX rfl (congrArg zext halfRead), fun unbacked i listed => ?_⟩
  obtain ⟨zero8, zero16, zero32⟩ := read_of_unbacked unbacked
  simp only [List.mem_cons, List.not_mem_nil, or_false] at listed
  rcases listed with rfl | rfl | rfl | rfl | rfl
  · exact registerResult_of_setX rfl (congrArg sext zero8)
  · exact registerResult_of_setX rfl (congrArg sext zero16)
  · exact registerResult_of_setX rfl zero32
  · exact registerResult_of_setX rfl (congrArg zext zero8)
  · exact registerResult_of_setX rfl (congrArg zext zero16)

/-! ### Stores -/

theorem storeResult_write16 (valid : Config.ValidMemSize s.memSize) (a v : Word) :
    StoreResult s (s.write16 a (v.extractLsb' 0 16)) (a.toNat < s.memSize) (alignHalf a) 2 v where
  stored b backed inUnit := by
    rw [read8_write16 valid, if_pos ⟨(backed_iff s a).mpr backed, inUnit⟩,
      BitVec.extractLsb'_extractLsb'_of_le (by omega)]
  others b outside := by
    rw [read8_write16 valid, if_neg]
    rwa [backed_iff]
  registers r := s.x_write16 a _ r
  pc := s.write16_pc a _
  csrs c := s.csrRaw_write16 a _ c
  modes := ⟨rfl, rfl, rfl⟩
  inputs := ⟨rfl, rfl, rfl⟩

theorem storeResult_write32 (valid : Config.ValidMemSize s.memSize) (a v : Word) :
    StoreResult s (s.write32 a v) (a.toNat < s.memSize) (alignWord a) 4 v where
  stored b backed inUnit := by
    rw [read8_write32 valid, if_pos ⟨(backed_iff s a).mpr backed, inUnit⟩]
  others b outside := by
    rw [read8_write32 valid, if_neg]
    rwa [backed_iff]
  registers r := s.x_write32 a _ r
  pc := s.write32_pc a _
  csrs c := s.csrRaw_write32 a _ c
  modes := ⟨rfl, rfl, rfl⟩
  inputs := ⟨rfl, rfl, rfl⟩

theorem exec_sh (s : State) (rs1 rs2 : Reg) (imm : BitVec 12) :
    exec (.sh rs1 rs2 imm) s = .next (s.write16 (s.x rs1 + imm.signExtend 32) ((s.x rs2).extractLsb' 0 16)) := rfl

theorem exec_sw (s : State) (rs1 rs2 : Reg) (imm : BitVec 12) :
    exec (.sw rs1 rs2 imm) s = .next (s.write32 (s.x rs1 + imm.signExtend 32) (s.x rs2)) := rfl

/-- Settles O31: each arm is one store at the address of R200, and the store changes its aligned unit alone. -/
theorem storeHalfAndWordResults : Obligations.StoreHalfAndWordResults := fun s rs1 rs2 imm valid =>
  ⟨⟨_, exec_sh s rs1 rs2 imm, storeResult_write16 valid _ (s.x rs2)⟩,
    ⟨_, exec_sw s rs1 rs2 imm, storeResult_write32 valid _ (s.x rs2)⟩⟩

/-! ### A stored word read back -/

/-- Byte k of a word stored at an aligned backed address. -/
theorem read8_write32_add {a : Word} (valid : Config.ValidMemSize s.memSize) (aligned : a.toNat % 4 = 0)
    (backed : a.toNat < s.memSize) (v : Word) {k : Nat} (hk : k < 4) :
    (s.write32 a v).read8 (a + BitVec.ofNat 32 k) = v.extractLsb' (8 * k) 8 := by
  have offset : (a + BitVec.ofNat 32 k - alignWord a).toNat = k := by
    rw [alignWord_of_aligned aligned]
    bv_omega
  rw [read8_write32 valid, offset, if_pos ⟨(backed_iff s a).mpr backed, hk⟩]

/-- Halfword k / 2 of a word stored at an aligned backed address. -/
theorem read16_write32_add {a : Word} (valid : Config.ValidMemSize s.memSize) (aligned : a.toNat % 4 = 0)
    (backed : a.toNat < s.memSize) (v : Word) {k : Nat} (even : k % 2 = 0) (hk : k + 1 < 4) :
    (s.write32 a v).read16 (a + BitVec.ofNat 32 k) = v.extractLsb' (8 * k) 16 := by
  have unit : alignHalf (a + BitVec.ofNat 32 k) = a + BitVec.ofNat 32 k := by
    apply alignHalf_of_aligned
    bv_omega
  have next : a + BitVec.ofNat 32 k + 1#32 = a + BitVec.ofNat 32 (k + 1) := by bv_omega
  rw [read16_eq_bytes (s := s.write32 a v) valid, unit, next, read8_write32_add valid aligned backed v hk,
    read8_write32_add valid aligned backed v (by omega),
    BitVec.extractLsb'_append_extractLsb'_eq_extractLsb' (Nat.mul_succ 8 k)]

/-- Settles O32: a word by `read32_write32`, narrower reads byte by byte. -/
theorem storedWordReadsBackInEveryWidth : Obligations.StoredWordReadsBackInEveryWidth := by
  intro s a v valid aligned backed
  refine ⟨read32_write32 v backed backed rfl, ?_, read16_write32_add valid aligned backed v (k := 2) rfl (by decide),
    fun k => read8_write32_add valid aligned backed v⟩
  have low := read16_write32_add valid aligned backed v (k := 0) rfl (by decide)
  rwa [BitVec.add_zero] at low

/-! ### The fetch -/

/-- Settles O33: the store and the fetch go to the same aligned word. -/
theorem storeIsSeenByNextFetch : Obligations.StoreIsSeenByNextFetch := fun s rs1 rs2 imm sameWord pcBacked eaBacked =>
  ⟨_, exec_sw s rs1 rs2 imm, rfl, read32_write32 (s.x rs2) eaBacked pcBacked sameWord.symm⟩

/-- Settles O34: the read goes by the aligned word, and the word 0 of an unbacked pc is no instruction. -/
theorem fetchAlignsDown : Obligations.FetchAlignsDown := by
  intro s valid
  refine ⟨(read32_alignWord valid s.pc).symm, fun unbacked => ?_⟩
  obtain ⟨-, -, zero⟩ := read_of_unbacked unbacked
  have rejected : decodeWord s.fetchWord = .error .opcode := by
    rw [State.fetchWord, zero]
    rfl
  exact ⟨zero, fun fetches notDebug => exists_trapTaken_of_reject fetches notDebug rejected⟩

end Sys2Proof.Machine
end

section
/-! PROOFS. The register-immediate instructions, LUI, JALR and the expansion of `li`
(spec/42_integer_computational.md R244 to R252, R264; spec/43_control_transfer.md R307; spec/30_encoding.md R155). -/

namespace Sys2Proof.Machine

variable {s t u : State} {rd : Reg} {v w : Word}

/-! ### Register-immediate and LUI -/

/-- A sign-extended immediate has the value of its field. -/
theorem toInt_immI (imm : BitVec 12) : (imm.signExtend 32).toInt = imm.toInt :=
  BitVec.toInt_signExtend_of_le (by decide)

/-- Settles O35: each arm is one write of rd, with the value the ALU's lemmas give in integer arithmetic. -/
theorem registerImmediateResults : Obligations.RegisterImmediateResults := fun _ _ _ imm _ =>
  ⟨registerResult_of_setX rfl (toInt_immI imm ▸ add_eq_ofInt_add _ _),
    registerResult_of_setX rfl (toInt_immI imm ▸ aluSlt_eq_ite _ _),
    registerResult_of_setX rfl (aluSltu_eq_ite _ _),
    registerResult_of_setX rfl rfl,
    registerResult_of_setX rfl rfl,
    registerResult_of_setX rfl rfl,
    registerResult_of_setX rfl (shiftLeft_eq_ofNat_mul _ _),
    registerResult_of_setX rfl (shiftRightLogical_eq_ofNat_div _ _),
    registerResult_of_setX rfl (shiftRightArithmetic_eq_ofInt_div _ _)⟩

theorem immU_eq_ofNat (imm20 : BitVec 20) : immU imm20 = BitVec.ofNat 32 (imm20.toNat * 2 ^ 12) := by
  rw [← toNat_immU, BitVec.ofNat_toNat, BitVec.setWidth_eq]

/-- Settles O38: LUI is one write of rd. -/
theorem luiResult : Obligations.LuiResult := fun _ _ imm20 => registerResult_of_setX rfl (immU_eq_ofNat imm20)

/-! ### JALR -/

/-- Clearing bit 0 rounds down to a multiple of 2. -/
theorem indirectTarget_eq_ofNat (base imm : Word) :
    indirectTarget base imm = BitVec.ofNat 32 ((base + imm).toNat / 2 * 2) := by
  rw [indirectTarget, and_halfMask, ← toNat_alignHalf, BitVec.ofNat_toNat, BitVec.setWidth_eq]

/-- Settles O41: JALR is the write of the link value to rd, then the write of the pc, from the old base. -/
theorem jalrResult : Obligations.JalrResult := fun _ _ _ _ =>
  ⟨_, rfl, linkResult_setX_setPc (indirectTarget_eq_ofNat _ _)⟩

/-! ### The expansion of `li` -/

/-- The second of two writes of a register is the one that stays. -/
theorem RegisterResult.trans (first : RegisterResult s t rd v) (second : RegisterResult t u rd w) :
    RegisterResult s u rd w where
  registers r := by
    rw [second.registers, first.registers]
    split_ifs <;> rfl
  pc := second.pc.trans first.pc
  csrs a := (second.csrs a).trans (first.csrs a)
  memory a := (second.memory a).trans (first.memory a)
  modes := by
    obtain ⟨mode, prevMode, status⟩ := first.modes
    obtain ⟨mode', prevMode', status'⟩ := second.modes
    exact ⟨mode'.trans mode, prevMode'.trans prevMode, status'.trans status⟩
  inputs := by
    obtain ⟨memSize, irqInputs, pcInst⟩ := first.inputs
    obtain ⟨memSize', irqInputs', pcInst'⟩ := second.inputs
    exact ⟨memSize'.trans memSize, irqInputs'.trans irqInputs, pcInst'.trans pcInst⟩

/-- A result for x0 says nothing of the value. -/
theorem RegisterResult.of_zero (result : RegisterResult s t 0 v) (w : Word) : RegisterResult s t 0 w where
  registers r := by
    rw [result.registers, if_neg (fun h => h.2 h.1), if_neg (fun h => h.2 h.1)]
  pc := result.pc
  csrs := result.csrs
  memory := result.memory
  modes := result.modes
  inputs := result.inputs

/-- A constant in ADDI's range is its own low 12 bits, sign-extended. -/
theorem immI_lo12_of_small (small : -2048 ≤ v.toInt ∧ v.toInt ≤ 2047) : immI (lo12 v) = v := by
  apply BitVec.eq_of_toInt_eq
  rw [immI, sext, toInt_immI, lo12, ← BitVec.setWidth_eq_extractLsb' (by decide), BitVec.toInt_setWidth]
  rw [BitVec.toInt_eq_toNat_cond] at small ⊢
  rw [Int.bmod_def]
  omega

theorem toNat_hi20 (v : Word) : (hi20 v).toNat = (v.toNat + 0x800) % 2 ^ 32 / 2 ^ 12 := by
  have half : (0x800#32).toNat = 0x800 := rfl
  rw [hi20, BitVec.extractLsb'_toNat, Nat.shiftRight_eq_div_pow, BitVec.toNat_add]
  omega

theorem toNat_lo12 (v : Word) : (lo12 v).toNat = v.toNat % 2 ^ 12 := by
  rw [lo12, BitVec.extractLsb'_toNat, Nat.shiftRight_zero]

/-- The low 12 bits count negative from 0x800 on. -/
theorem toNat_immI_lo12 (v : Word) : (immI (lo12 v)).toNat =
    v.toNat % 2 ^ 12 + if 2 ^ 11 ≤ v.toNat % 2 ^ 12 then 2 ^ 32 - 2 ^ 12 else 0 := by
  rw [immI, sext, BitVec.toNat_signExtend, BitVec.msb_eq_decide, BitVec.toNat_setWidth, toNat_lo12,
    Nat.mod_eq_of_lt (by omega)]
  simp only [decide_eq_true_eq]

/-- The two parts of a constant add up to it: hi20 rounds up where lo12 counts negative (R155). -/
theorem immU_hi20_add_immI_lo12 (v : Word) : immU (hi20 v) + immI (lo12 v) = v := by
  apply BitVec.eq_of_toNat_eq
  rw [BitVec.toNat_add, toNat_immU, toNat_hi20, toNat_immI_lo12]
  split_ifs <;> omega

/-- ADDI of a register to itself after a write of it; where the register is x0 neither writes anything. -/
theorem registerResult_setX_addi (s : State) (rd : Reg) (v imm : Word) :
    RegisterResult s ((s.setX rd v).setX rd ((s.setX rd v).x rd + imm)) rd (v + imm) := by
  by_cases zero : rd = 0
  · subst zero
    exact ((registerResult_setX rfl).trans (registerResult_setX rfl)).of_zero _
  · refine (registerResult_setX rfl).trans (registerResult_setX ?_)
    rw [State.x_setX, if_pos ⟨rfl, zero⟩]

/-- Settles O60, by the shapes of the expansion. -/
theorem liExpansionLoadsConstant : Obligations.LiExpansionLoadsConstant := by
  intro s rd imm
  rw [Pseudo.expand]
  unfold expandLi
  split_ifs with small noLow
  · refine ⟨s.setX rd (s.x 0 + immI (lo12 imm)), rfl, registerResult_setX ?_⟩
    rw [State.x_zero, BitVec.zero_add, immI_lo12_of_small small]
  · refine ⟨s.setX rd (immU (hi20 imm)), rfl, registerResult_setX ?_⟩
    have parts := immU_hi20_add_immI_lo12 imm
    rwa [noLow, show immI 0#12 = 0#32 from rfl, BitVec.add_zero] at parts
  · have result := registerResult_setX_addi s rd (immU (hi20 imm)) (immI (lo12 imm))
    rw [immU_hi20_add_immI_lo12] at result
    exact ⟨_, rfl, result⟩

end Sys2Proof.Machine
end

section
/-! PROOFS. The CSR bank bit by bit (spec/44_csr.md R330, R331, R340) and the CSR instructions (R332 to R339). A read
is the storage an address names behind a mask; a write is one masked write of that storage. -/

namespace Sys2Proof.Machine

variable {s : State} {a b : CsrAddr}

/-! ### Reads -/

/-- The bits of its storage an address shows (10_state.md R62, R63). -/
def csrViewMask (s : State) (a : CsrAddr) : Word :=
  if a = csrSstatus then sstatusMask else if a = csrSie ∨ a = csrSip then s.csrRaw csrMideleg else BitVec.allOnes 32

theorem csrRead_eq_and (s : State) (a : CsrAddr) : s.csrRead a = s.csrRaw (csrStorage a) &&& csrViewMask s a := by
  unfold State.csrRead csrStorage csrViewMask
  by_cases sstatus : a = csrSstatus
  · simp only [if_pos sstatus]
  by_cases sie : a = csrSie
  · simp only [if_neg sstatus, if_pos sie, if_pos (Or.inl sie)]
  by_cases sip : a = csrSip
  · simp only [if_neg sstatus, if_neg sie, if_pos sip, if_pos (Or.inr sip)]
  · simp only [if_neg sstatus, if_neg sie, if_neg sip, if_neg (not_or.mpr ⟨sie, sip⟩), BitVec.and_allOnes]

theorem getLsbD_csrViewMask (s : State) (a : CsrAddr) {k : Nat} (hk : k < 32) :
    (csrViewMask s a).getLsbD k = true ↔ csrVisible s a k := by
  unfold csrViewMask csrVisible
  split_ifs
  · exact getLsbD_sstatusMask k
  · exact Iff.rfl
  · exact iff_of_true (by rw [BitVec.getLsbD_allOnes, decide_eq_true hk]) trivial

/-- Settles O44: a bit of a masked read. -/
theorem csrReadShowsVisibleBits : Obligations.CsrReadShowsVisibleBits := by
  intro s a k hk
  rw [csrRead_eq_and, BitVec.getLsbD_and, Bool.and_eq_true, getLsbD_csrViewMask s a hk]

/-! ### Writes -/

theorem csrFixed_iff (a : CsrAddr) : csrFixed a ↔ a ∈ idRegisters ∨ a = csrMisa := by
  simp only [csrFixed, idRegisters, List.mem_cons, List.not_mem_nil, or_false]
  tauto

theorem csrWrite_of_fixed (fixed : csrFixed a) (v : Word) : s.csrWrite a v = s := by
  unfold State.csrWrite
  rcases (csrFixed_iff a).mp fixed with id | misa
  · rw [if_pos id]
  · rw [if_pos misa, ite_self]

/-- The bits a write through the address changes: those it shows, of sip only SSIP (10_state.md R63). -/
def csrWriteMask (s : State) (a : CsrAddr) : Word :=
  if a = csrSip then csrViewMask s a &&& sipWriteMask else csrViewMask s a

theorem mergeMasked_allOnes (old new : Word) : mergeMasked (BitVec.allOnes 32) old new = new := by
  rw [mergeMasked, BitVec.not_allOnes, BitVec.and_zero, BitVec.zero_or, BitVec.and_allOnes]

theorem csrStorage_of_not_view (own : a ∉ viewRegisters) : csrStorage a = a := by
  simp only [viewRegisters, List.mem_cons, List.not_mem_nil, or_false, not_or] at own
  obtain ⟨sstatus, sie, sip⟩ := own
  rw [csrStorage, if_neg sstatus, if_neg sie, if_neg sip]

theorem csrWriteMask_of_not_view (own : a ∉ viewRegisters) : csrWriteMask s a = BitVec.allOnes 32 := by
  simp only [viewRegisters, List.mem_cons, List.not_mem_nil, or_false, not_or] at own
  obtain ⟨sstatus, sie, sip⟩ := own
  rw [csrWriteMask, csrViewMask, if_neg sip, if_neg sstatus, if_neg (not_or.mpr ⟨sie, sip⟩)]

/-- A write to an address that is not fixed is one masked write of the storage the address names (R331). -/
theorem csrWrite_of_not_fixed (free : ¬ csrFixed a) (v : Word) :
    s.csrWrite a v = s.setCsrRaw (csrStorage a) (mergeMasked (csrWriteMask s a) (s.csrRaw (csrStorage a)) v) := by
  rw [csrFixed_iff, not_or] at free
  unfold State.csrWrite
  rw [if_neg free.1, if_neg free.2]
  split_ifs with sstatus sie sip satp
  · rw [sstatus]
    rfl
  · rw [sie]
    rfl
  · rw [sip]
    rfl
  · rw [satp, csrStorage_of_not_view (by decide), csrWriteMask_of_not_view (by decide), mergeMasked_allOnes]
    rfl
  · have own : a ∉ viewRegisters := by simp [viewRegisters, sstatus, sie, sip]
    rw [csrStorage_of_not_view own, csrWriteMask_of_not_view own, mergeMasked_allOnes]

theorem getLsbD_csrWriteMask (s : State) (free : ¬ csrFixed a) {k : Nat} (hk : k < 32) :
    (csrWriteMask s a).getLsbD k = true ↔ csrWritable s a k := by
  rw [csrWriteMask, csrWritable, and_iff_right free, ← getLsbD_csrViewMask s a hk]
  by_cases sip : a = csrSip
  · rw [if_pos sip, BitVec.getLsbD_and, Bool.and_eq_true, getLsbD_sipWriteMask, forall_prop_of_true sip]
  · rw [if_neg sip, forall_prop_of_false sip, and_true]

/-- A write leaves the storage of every other address alone. -/
theorem csrRaw_csrWrite_of_ne (other : b ≠ csrStorage a) (v : Word) : (s.csrWrite a v).csrRaw b = s.csrRaw b := by
  by_cases fixed : csrFixed a
  · rw [csrWrite_of_fixed fixed]
  · rw [csrWrite_of_not_fixed fixed, State.csrRaw_setCsrRaw, if_neg other]

/-- A bit of the written storage is the value's where the address can write it, and the old one elsewhere. -/
theorem getLsbD_csrWrite_storage (free : ¬ csrFixed a) (v : Word) (k : Nat) :
    ((s.csrWrite a v).csrRaw (csrStorage a)).getLsbD k =
      if (csrWriteMask s a).getLsbD k then v.getLsbD k else (s.csrRaw (csrStorage a)).getLsbD k := by
  rw [csrWrite_of_not_fixed free, State.csrRaw_setCsrRaw_same, getLsbD_mergeMasked]

/-- Settles O43: fixed addresses write nothing; the other ones write their storage, under the mask. -/
theorem csrWriteChangesWritableBits : Obligations.CsrWriteChangesWritableBits := by
  intro s a b v k
  by_cases hk : k < 32
  case neg => simp only [BitVec.getLsbD_of_ge _ k (Nat.le_of_not_lt hk), implies_true, and_self]
  refine ⟨fun ⟨storage, writable⟩ => ?_, fun unwritten => ?_⟩
  · have free : ¬ csrFixed a := writable.1
    rw [storage, getLsbD_csrWrite_storage free, if_pos ((getLsbD_csrWriteMask s free hk).mpr writable)]
  · by_cases fixed : csrFixed a
    · rw [csrWrite_of_fixed fixed]
    by_cases storage : b = csrStorage a
    · have masked := fun mask => unwritten ⟨storage, (getLsbD_csrWriteMask s fixed hk).mp mask⟩
      rw [storage, getLsbD_csrWrite_storage fixed, if_neg masked]
    · rw [csrRaw_csrWrite_of_ne storage]

/-- Settles O45: the bits a write can change are among those the read showed, and they get their own value back. -/
theorem csrWriteBackIsSilent : Obligations.CsrWriteBackIsSilent := by
  intro s a b
  by_cases fixed : csrFixed a
  · rw [csrWrite_of_fixed fixed]
  by_cases storage : b = csrStorage a
  · subst storage
    apply BitVec.eq_of_getLsbD_eq
    intro k hk
    rw [getLsbD_csrWrite_storage fixed, csrRead_eq_and, BitVec.getLsbD_and]
    split
    · next mask =>
      obtain ⟨-, visible, -⟩ := (getLsbD_csrWriteMask s fixed hk).mp mask
      rw [(getLsbD_csrViewMask s a hk).mpr visible, Bool.and_true]
    · rfl
  · exact csrRaw_csrWrite_of_ne storage _

/-! ### The CSR instructions -/

theorem csrAllowed_iff {level : BitVec 2} (encoded : s.mode.enc = some level) :
    s.csrAllowed a = true ↔ a.extractLsb' 8 2 ≤ level := by
  rw [State.csrAllowed, Mode.atLeast, encoded]
  exact decide_eq_true_iff

variable {i : Instr} {f : Word → Word → Word} {rd : Reg} {src v : Word}

/-- An arm that is `csrInstr f`, at a level the mode reaches. -/
theorem csrResult_of_csrInstr (arm : exec i s = csrInstr f rd a src s) (value : f (s.csrRead a) src = v)
    (allowed : s.csrAllowed a = true) : ∃ t, exec i s = .next t ∧ CsrResult s t rd a v := by
  rw [csrInstr, if_pos allowed, value] at arm
  exact ⟨_, arm, csrResult_csrWrite_setX rd a v⟩

/-- The same at a level the mode does not reach (R332). -/
theorem trapTaken_of_csrInstr (arm : exec i s = csrInstr f rd a src s) (refused : ¬ s.csrAllowed a = true)
    (notDebug : s.mode ≠ .debug) : ∃ t, exec i s = .next t ∧ TrapTaken s t false 2 s.pcInst := by
  rw [csrInstr, if_neg refused] at arm
  exact exists_trapTaken_of_raise arm notDebug

/-- Settles O42: each arm is `csrInstr` of one update of the old value. -/
theorem csrInstructionResults : Obligations.CsrInstructionResults := by
  intro s rd rs1 a zimm level encoded
  rw [← csrAllowed_iff encoded]
  refine ⟨fun allowed => ⟨csrResult_of_csrInstr rfl rfl allowed, csrResult_of_csrInstr rfl rfl allowed,
    csrResult_of_csrInstr rfl rfl allowed, csrResult_of_csrInstr rfl rfl allowed, csrResult_of_csrInstr rfl rfl allowed,
    csrResult_of_csrInstr rfl rfl allowed⟩, fun refused i listed => ?_⟩
  have notDebug : s.mode ≠ .debug := fun debug => by rw [debug] at encoded; cases encoded
  simp only [List.mem_cons, List.not_mem_nil, or_false] at listed
  rcases listed with rfl | rfl | rfl | rfl | rfl | rfl <;> exact trapTaken_of_csrInstr rfl refused notDebug

end Sys2Proof.Machine
end

section
/-! PROOFS. Which instruction changes what: registers (spec/10_state.md R31), memory (spec/20_memory.md R108), the
CSRs of higher levels (spec/44_csr.md R332), and what code outside the privileged instructions reads
(spec/20_memory.md R111; spec/30_encoding.md R152). `Effect` does not say which instruction has which effect, so two of
these split over the instructions. -/

namespace Sys2Proof

/-- The register an instruction writes (R142), where its meaning writes one. -/
def Instr.destination : Instr → Option Reg
  | .lb rd .. | .lh rd .. | .lw rd .. | .lbu rd .. | .lhu rd .. => some rd
  | .addi rd .. | .slti rd .. | .sltiu rd .. | .xori rd .. | .ori rd .. | .andi rd .. => some rd
  | .slli rd .. | .srli rd .. | .srai rd .. | .auipc rd .. | .lui rd .. => some rd
  | .add rd .. | .sub rd .. | .sll rd .. | .slt rd .. | .sltu rd .. => some rd
  | .xor rd .. | .srl rd .. | .sra rd .. | .or rd .. | .and rd .. => some rd
  | .jalr rd .. | .jal rd .. => some rd
  | .csrrw rd .. | .csrrs rd .. | .csrrc rd .. | .csrrwi rd .. | .csrrsi rd .. | .csrrci rd .. => some rd
  | _ => none

theorem rdField_encode {i : Instr} {rd : Reg} (h : i.destination = some rd) : rdField (encode i) = rd := by
  cases i with
  | lb | lh | lw | lbu | lhu | addi | slti | sltiu | xori | ori | andi | slli | srli | srai | jalr =>
    cases h; exact rdField_encodeI ..
  | csrrw | csrrs | csrrc | csrrwi | csrrsi | csrrci => cases h; exact rdField_encodeI ..
  | add | sub | sll | slt | sltu | xor | srl | sra | or | and => cases h; exact rdField_encodeR ..
  | auipc | lui => cases h; exact rdField_encodeU ..
  | jal => cases h; exact rdField_encodeJ ..
  | _ => cases h

end Sys2Proof

namespace Sys2Proof.Machine

variable {s t : State} {i : Instr}

/-! ### Registers and memory -/

/-- Of registers and memory, the instruction changed its destination at most, and memory only if it stores. -/
structure Confined (i : Instr) (s t : State) : Prop where
  registers : ∀ r : Reg, t.x r ≠ s.x r → i.destination = some r ∧ r ≠ 0
  memory : t.mem ≠ s.mem → isStore i = true

theorem confined_of_same (registers : SameRegisters s t) (memory : t.mem = s.mem) : Confined i s t where
  registers r changed := absurd (registers r) changed
  memory changed := absurd memory changed

theorem confined_of_store (registers : SameRegisters s t) (store : isStore i = true) : Confined i s t where
  registers r changed := absurd (registers r) changed
  memory _ := store

theorem confined_of_write {rd : Reg} {v : Word} (destination : i.destination = some rd)
    (registers : ∀ r, t.x r = if r = rd ∧ r ≠ 0 then v else s.x r) (memory : t.mem = s.mem) : Confined i s t where
  registers r changed := by
    by_cases written : r = rd ∧ r ≠ 0
    · exact ⟨written.1 ▸ destination, written.2⟩
    · exact absurd ((registers r).trans (if_neg written)) changed
  memory changed := absurd memory changed

theorem confined_of_trapEntry {c : Cause} {epc : Word} (h : trapEntry c epc s = .next t) : Confined i s t := by
  obtain ⟨regs, mem, -⟩ := trapEntry_keeps h
  exact confined_of_same (fun r => by rw [State.x, State.x, regs]) mem

theorem confined_of_branch {c : Word → Word → Bool} {rs1 rs2 : Reg} {imm : BitVec 13}
    (h : branch c rs1 rs2 imm s = .next t) : Confined i s t := by
  cases h
  split <;> exact confined_of_same (fun _ => rfl) rfl

theorem confined_of_csrInstr {f : Word → Word → Word} {rd : Reg} {a : CsrAddr} {src : Word}
    (destination : i.destination = some rd) (h : csrInstr f rd a src s = .next t) : Confined i s t := by
  unfold csrInstr at h
  split at h
  · cases h
    exact confined_of_write destination (csrResult_csrWrite_setX rd a _).registers (s.csrWrite_mem a _)
  · exact confined_of_trapEntry h

theorem confined_of_execEcall (h : execEcall s = .next t) : Confined i s t := by
  unfold execEcall at h
  split at h
  case h_4 => cases h
  all_goals exact confined_of_trapEntry h

theorem confined_of_execSret (h : execSret s = .next t) : Confined i s t := by
  unfold execSret at h
  split at h
  · cases h
    exact confined_of_same (fun _ => rfl) rfl
  · exact confined_of_trapEntry h

theorem confined_of_execMret (h : execMret s = .next t) : Confined i s t := by
  unfold execMret at h
  split at h
  · obtain ⟨m, -, rfl⟩ := s.returnFromMachine_next h
    exact confined_of_same (fun _ => rfl) rfl
  · exact confined_of_trapEntry h

theorem confined_of_exec (h : exec i s = .next t) : Confined i s t := by
  cases i with
  | sb | sh | sw => cases h; exact confined_of_store (fun _ => rfl) rfl
  | fence | fenceI | wfi | sfenceVma | uret => cases h; exact confined_of_same (fun _ => rfl) rfl
  | beq | bne | blt | bge | bltu | bgeu => exact confined_of_branch h
  | csrrw | csrrs | csrrc | csrrwi | csrrsi | csrrci => exact confined_of_csrInstr rfl h
  | ecall => exact confined_of_execEcall h
  | ebreak => exact confined_of_trapEntry h
  | sret => exact confined_of_execSret h
  | mret => exact confined_of_execMret h
  | jalr | jal => cases h; exact confined_of_write rfl (linkResult_setX_setPc rfl).registers rfl
  | _ => cases h; exact confined_of_write rfl (registerResult_setX rfl).registers rfl

/-- A step that changes a register or memory ran an instruction, and did what the instruction may. -/
theorem confined_of_step (h : step s = .next t) :
    (SameRegisters s t ∧ t.mem = s.mem) ∨ ∃ i, decodeWord s.fetchWord = .ok i ∧ Confined i s t := by
  rcases step_next h with ⟨-, rfl⟩ | ⟨-, i, -, taken⟩ | ⟨-, -, ⟨i, decoded, executed⟩ | ⟨e, -, raised⟩⟩
  · exact .inl ⟨fun _ => rfl, rfl⟩
  · obtain ⟨regs, mem, -⟩ := trapEntry_keeps taken
    exact .inl ⟨fun r => by rw [State.x, State.x, regs]; rfl, mem⟩
  · exact .inr ⟨i, decoded, (confined_of_exec executed).registers, (confined_of_exec executed).memory⟩
  · obtain ⟨regs, mem, -⟩ := trapEntry_keeps raised
    exact .inl ⟨fun r => by rw [State.x, State.x, regs]; rfl, mem⟩

/-- Settles O56: the word is the encoding of the instruction that ran, so its rd field is the destination. -/
theorem stepChangesOnlyRd : Obligations.StepChangesOnlyRd := by
  intro s t r h changed
  rcases confined_of_step h with ⟨registers, -⟩ | ⟨i, decoded, confined⟩
  · exact absurd (registers r) changed
  · obtain ⟨destination, notZero⟩ := confined.registers r changed
    obtain ⟨-, encoded⟩ := encode_of_decodeWord decoded
    exact ⟨(rdField_encode destination).symm.trans (congrArg rdField encoded), notZero⟩

/-- Settles O57: the instruction that ran stores. -/
theorem onlyStoresChangeMemory : Obligations.OnlyStoresChangeMemory := by
  intro s t h changed
  rcases confined_of_step h with ⟨-, memory⟩ | ⟨i, decoded, confined⟩
  · exact absurd memory changed
  · exact ⟨i, decoded, confined.memory changed⟩

/-! ### CSRs of higher levels -/

/-- No view's address is at U's level, so an address that is names its own storage. -/
theorem csrStorage_of_user_level {a : CsrAddr} (user : a.extractLsb' 8 2 = 0#2) : csrStorage a = a := by
  apply csrStorage_of_not_view
  intro view
  revert user
  fin_cases view <;> decide

/-- U reaches no level but its own. -/
theorem user_atLeast_iff (level : BitVec 2) : Mode.user.atLeast level = true ↔ level = 0#2 := by
  rw [Mode.atLeast, Mode.enc]
  simp

/-- Settles O58: in U the one effect that writes a CSR and stays in U is a CSR instruction's at level 0, and a write
there changes level 0's storage. -/
theorem userModeKeepsPrivilegedCsrs : Obligations.UserModeKeepsPrivilegedCsrs := by
  intro s t i user h stays a higher
  cases exec_next h with
  | csr rd b v allowed =>
    rw [State.csrAllowed, user, user_atLeast_iff] at allowed
    rw [State.csrRaw_setX, csrRaw_csrWrite_of_ne]
    rw [csrStorage_of_user_level allowed]
    exact fun same => higher (same ▸ allowed)
  | trap e t raised =>
    obtain ⟨-, -, -, -, supervisor | machine⟩ := trapEntry_keeps raised
    · cases supervisor.symm.trans stays
    · cases machine.symm.trans stays
  | sret allowed =>
    rw [user] at allowed
    cases allowed
  | mret t allowed =>
    rw [user] at allowed
    cases allowed
  | _ => rfl

/-! ### Code outside the privileged instructions -/

/-- The state with another mode and bank. -/
def State.withPrivilege (s : State) (m : Mode) (bank : CsrBank) : State := { s with mode := m, csr := bank }

theorem branch_withPrivilege {c : Word → Word → Bool} {rs1 rs2 : Reg} {imm : BitVec 13} (m : Mode) (bank : CsrBank)
    (h : branch c rs1 rs2 imm s = .next t) :
    branch c rs1 rs2 imm (s.withPrivilege m bank) = .next (t.withPrivilege m bank) := by
  cases h
  have same : ∀ r, (s.withPrivilege m bank).x r = s.x r := fun _ => rfl
  rw [branch, same, same]
  split <;> rfl

/-- Settles O59: no meaning outside the privileged ones reads the mode or the bank, and none writes them. -/
theorem unprivilegedCodeIgnoresModeAndCsrs : Obligations.UnprivilegedCodeIgnoresModeAndCsrs := by
  intro i s t m bank unprivileged h
  cases i with
  | beq | bne | blt | bge | bltu | bgeu => exact branch_withPrivilege m bank h
  | csrrw | csrrs | csrrc | csrrwi | csrrsi | csrrci | ecall | ebreak | uret | sret | mret => cases unprivileged
  | _ => cases h; rfl

end Sys2Proof.Machine
end
